-- ==== Sys2Proof/Word.lean ====
section
/-! DEFINITION. The word types of the BFU: data words, command words, bytes and the status register (00_scope.md R9). -/

namespace Sys2Proof

/-- A data word: "a 64-bit unsigned integer, the sole storage unit" (R9, R15). -/
abbrev Word := BitVec 64

/-- A command word, numbered LSB-0 (R12, R60). -/
abbrev Cmd := BitVec 32

/-- A byte of a data word (R9, R11). -/
abbrev Byte := BitVec 8

/-- The `STATUS` register, numbered LSB-0 (R12, R26). -/
abbrev StatusWord := BitVec 16

end Sys2Proof
end

