-- ==== Sys2Proof/Config.lean ====
section
/-! DEFINITION. What an implementation of the BFU fixes and the spec leaves OPEN (00_scope.md R9). Every other parameter of R9 has one value and stands in the types and the range checks. -/

namespace Sys2Proof.Config

/-- The part of `BFU_LATENCY` above its least value. No body: the spec gives no cycle count (R246). -/
opaque latencyAboveOne : Nat

/-- `BFU_LATENCY`: "an integer of at least 1, the same for every command and every operand value, and fixed for an
implementation" (R246). No rule depends on it, so no step reads it (log 11). -/
def bfuLatency : Nat := latencyAboveOne + 1

end Sys2Proof.Config
end

