-- ==== Sys2Proof/Syntax.lean ====
section
/-! DEFINITION. The commands of the BFU as syntax: one constructor of `Instr` per row of spec/opcode_table.json, the pseudo-instructions of 30_encoding.md R72, the three classes of R67, and the words of the assembler's text (R69). -/

namespace Sys2Proof

/-- `SRC`: where a reading command takes its word from (R61, R62). -/
inductive Source where
  /-- `SRC = 0`, written `A`: the operand bus `a`. -/
  | busA
  /-- `SRC = 1`, written `W`: the register `WORD`. -/
  | word
  deriving DecidableEq, Repr

/-- `SW`: the `swapped` flag, "a simple enum-like parameter (`Normal | ByteSwapped`)" (R62). -/
inductive ByteOrder where
  /-- `SW = 0`. -/
  | normal
  /-- `SW = 1`. -/
  | byteSwapped
  deriving DecidableEq, Repr

/-- The four commands (R63). Operands are numbers (R62), not bit fields; `Instr.wellFormed` says which fit their
7-bit field. A value that fits but is out of range for the operation is well-formed (R67, R70). -/
inductive Instr where
  /-- `BITMASK #len` (R101). -/
  | bitmask (len : Nat)
  /-- `GETBF src, #pos, #len`, and `GETBF.SW` when `order` is `byteSwapped` (R113). -/
  | getbf (order : ByteOrder) (src : Source) (pos len : Nat)
  /-- `SETBF #pos, #len` (R131). -/
  | setbf (pos len : Nat)
  /-- `NTHBYTE src, #n` (R141). -/
  | nthbyte (src : Source) (n : Nat)
  deriving DecidableEq, Repr

/-- The four assigned values of `OP` (R63). -/
inductive Opcode where
  | bitmask | getbf | setbf | nthbyte
  deriving DecidableEq, Repr

/-- The class of a command word (R67, step 1). -/
inductive Decoded where
  /-- `OP` is not 1 to 4. -/
  | illegal
  /-- `OP` is 1 to 4 and a bit inside that command's mask differs from its match. -/
  | reserved
  /-- The word matches one row of R65. -/
  | wellFormed (i : Instr)
  deriving DecidableEq, Repr

/-- The pseudo-instructions, "each is exactly one command" (R72). -/
inductive Pseudo where
  /-- `LDW {b = v}` -/
  | ldw (v : Word)
  /-- `CLRW` -/
  | clrw
  /-- `RDW` -/
  | rdw
  /-- `GETBIT src, #p` -/
  | getbit (src : Source) (p : Nat)
  /-- `SETBIT #p` -/
  | setbit (p : Nat)
  /-- `CLRBIT #p` -/
  | clrbit (p : Nat)
  /-- `CLRBF #p, #len` -/
  | clrbf (p len : Nat)
  /-- `GETBYTE src, #n` -/
  | getbyte (src : Source) (n : Nat)
  deriving DecidableEq, Repr

/-- A word or mark of a line of assembler text (R69). -/
inductive Token where
  /-- A mnemonic, directive, source or bus name, its letters as the line writes them. -/
  | name (cs : List Char)
  /-- An immediate, `#` and its numeral: "in decimal or `0x` hexadecimal". -/
  | imm (n : Nat)
  /-- A numeral written `0x...`: the value of a bus or of `.word`. -/
  | hex (n : Nat)
  | comma
  | openBrace
  | closeBrace
  | equals
  deriving DecidableEq, Repr

/-- What one line of assembler text gives: the command word, and the bus values its annotation names (R69). -/
structure AsmLine where
  cmd : Cmd
  a   : Option Word
  b   : Option Word
  deriving DecidableEq, Repr

/-- Why the assembler rejects a line (R70). -/
inductive AsmError where
  /-- "A syntax rule R69 does not give", nor R70 or R72; or a bus or `.word` value that does not fit its width. -/
  | badLine
  /-- "an immediate that does not fit its 7-bit field: a value above 127". -/
  | immediateTooLarge
  deriving DecidableEq, Repr

end Sys2Proof
end

