-- ==== Sys2Proof/WellFormed.lean ====
section
/-! DEFINITION. Which instructions have an encoding: every immediate fits its 7-bit field (30_encoding.md R62, R70). -/

namespace Sys2Proof

/-- The value fits a 7-bit field, `POS` or `LEN`: 0 to 127 (R61, R62). -/
def fitsField (n : Nat) : Bool := n ≤ 127

/-- Every immediate of the instruction fits the field that holds it. R70: an immediate "that fits but is out of range for
the operation" is still encoded. -/
def Instr.wellFormed : Instr → Bool
  | .bitmask len => fitsField len
  | .getbf _ _ pos len => fitsField pos && fitsField len
  | .setbf pos len => fitsField pos && fitsField len
  | .nthbyte _ n => fitsField n

end Sys2Proof
end

