-- ==== Sys2Proof/Decode.lean ====
section
/-! DEFINITION. Decoding and encoding of command words (30_encoding.md R61 to R67, spec/opcode_table.json). Decoding is total: every word is illegal, reserved or a well-formed command. -/

namespace Sys2Proof

/-! ## The fields of a command word (R61, R62) -/

/-- `OP = cmd[3:0]`. -/
def opField (w : Cmd) : BitVec 4 := w.extractLsb' 0 4

/-- `SW = cmd[4]`. -/
def swField (w : Cmd) : Bool := w.getLsbD 4

/-- `SRC = cmd[5]`. -/
def srcField (w : Cmd) : Bool := w.getLsbD 5

/-- `POS = cmd[14:8]`, zero-extended. -/
def posField (w : Cmd) : Nat := (w.extractLsb' 8 7).toNat

/-- `LEN = cmd[22:16]`, zero-extended. -/
def lenField (w : Cmd) : Nat := (w.extractLsb' 16 7).toNat

/-- `SRC`: 0 = operand `a`, 1 = register `WORD` (R61). -/
def Source.ofBit (b : Bool) : Source := if b then .word else .busA

/-- `SW`: 0 = Normal, 1 = ByteSwapped (R61). -/
def ByteOrder.ofBit (b : Bool) : ByteOrder := if b then .byteSwapped else .normal

/-! ## The rows of the table (R63, R65) -/

/-- The opcode map (R63): 0x0 and 0x5 to 0xF are illegal. -/
def Opcode.ofField (op : BitVec 4) : Option Opcode :=
  match op.toNat with
  | 1 => some .bitmask
  | 2 => some .getbf
  | 3 => some .setbf
  | 4 => some .nthbyte
  | _ => none

/-- `MATCH[op]` (R65). -/
def Opcode.pattern : Opcode → Cmd
  | .bitmask => 0x00000001#32
  | .getbf => 0x00000002#32
  | .setbf => 0x00000003#32
  | .nthbyte => 0x00000004#32

/-- `MASK[op]` (R65). -/
def Opcode.mask : Opcode → Cmd
  | .bitmask => 0xFF80FFFF#32
  | .getbf => 0xFF8080CF#32
  | .setbf => 0xFF8080FF#32
  | .nthbyte => 0xFFFF80DF#32

/-- The operands of a word that matches the row (R64). -/
def Opcode.operands (w : Cmd) : Opcode → Instr
  | .bitmask => .bitmask (lenField w)
  | .getbf => .getbf (.ofBit (swField w)) (.ofBit (srcField w)) (posField w) (lenField w)
  | .setbf => .setbf (posField w) (lenField w)
  | .nthbyte => .nthbyte (.ofBit (srcField w)) (posField w)

/-- The class of a command word (R67, step 1; R150, stage 1). -/
def decode (w : Cmd) : Decoded :=
  match Opcode.ofField (opField w) with
  | none => .illegal
  | some op => if w &&& op.mask = op.pattern then .wellFormed (op.operands w) else .reserved

/-- The instruction of an opcode-table word. A command is one 32-bit word (R60), so nothing stands above `nbits`. -/
def decodeTableWord (nbits w : Nat) : Option Instr :=
  match decode (BitVec.ofNat 32 (w % 2 ^ nbits)) with
  | .wellFormed i => some i
  | .illegal => none
  | .reserved => none

/-! ## The encoder (R66) -/

/-- The bit of `SRC`. -/
def Source.bit : Source → Cmd
  | .busA => 0#32
  | .word => 1#32

/-- The bit of `SW`. -/
def ByteOrder.bit : ByteOrder → Cmd
  | .normal => 0#32
  | .byteSwapped => 1#32

/-- `cmd = OP | (SW << 4) | (SRC << 5) | (POS << 8) | (LEN << 16)` (R66). -/
def encodeFields (op sw src : Cmd) (pos len : Nat) : Cmd :=
  op ||| (sw <<< 4) ||| (src <<< 5) ||| (BitVec.ofNat 32 pos <<< 8) ||| (BitVec.ofNat 32 len <<< 16)

/-- The command word of an instruction; a field the command does not use is zero (R64). -/
def encode : Instr → Cmd
  | .bitmask len => encodeFields 1#32 0#32 0#32 0 len
  | .getbf order src pos len => encodeFields 2#32 order.bit src.bit pos len
  | .setbf pos len => encodeFields 3#32 0#32 0#32 pos len
  | .nthbyte src n => encodeFields 4#32 0#32 src.bit n 0

end Sys2Proof
end

