-- ==== Sys2Proof/Machine/State.lean ====
section
/-! DEFINITION. The state of the BFU (10_state.md R20), the input lines the host drives (00_scope.md R8), the host's moves (70_reset_and_hazards.md R240, R244), the error causes (60_exceptions.md R201), and the state right after reset (10_state.md R33). -/

namespace Sys2Proof.Machine

open Sys2Proof

/-- Why a command is rejected: the causes 1 to 7 of R201. -/
inductive BfuError where
  /-- 1: `OP` is 0x0 or 0x5 to 0xF. -/
  | illegalOp
  /-- 2: a reserved bit, or a field the command does not use, is non-zero. -/
  | reservedField
  /-- 3: `BITMASK` with `LEN > 64`. -/
  | widthRange
  /-- 4: `GETBF` or `SETBF` with `LEN = 0`. -/
  | zeroWidth
  /-- 5: `GETBF` or `SETBF` with `POS + LEN > 64`. -/
  | fieldRange
  /-- 6: `NTHBYTE` with `POS > 7`. -/
  | byteIndex
  /-- 7: `GETBF` with `SW = 1` and `LEN mod 8 ≠ 0`. -/
  | swapWidth
  deriving DecidableEq, Repr

/-- What the host presents with the issue strobe: the command word and the two operand buses (R8, R21). -/
structure Transaction where
  cmd : Cmd
  a   : Word
  b   : Word
  deriving DecidableEq, Repr

/-- One move of the host at the unit's inputs: its liberties of R244. The moves R243 forbids do not exist here, as I15 of
93_implementation_defined.md asks (log 9). -/
inductive HostMove where
  /-- Issue a command (R244). -/
  | command (t : Transaction)
  /-- Assert `rst`, perhaps while a command is in flight; that command is abandoned (R240). -/
  | assertRst (inFlight : Option Transaction)
  /-- Release `rst` (R240). -/
  | releaseRst
  /-- Power the unit on: "Power-on behaves as a reset" (R240). -/
  | powerOn
  /-- Read the output ports: no side effect (R34, R244). -/
  | readPorts
  deriving DecidableEq, Repr

/-- What stops the machine: nothing. A command is performed or rejected, and the unit then accepts the next one (R67, R200,
R207), so the type has no constructor (log 14). -/
inductive Fault where
  deriving DecidableEq, Repr

/-- Why an instruction has no meaning. -/
inductive Refusal where
  /-- Raised by an arm of `exec` whose instruction has no meaning yet; safe. No arm of this model answers it. -/
  | notModelled (mnemonic : String)
  deriving DecidableEq, Repr

/-- The three registers of R20, the input lines the host drives, and the host's moves still to come. -/
structure State where
  /-- `WORD`: the word that `SETBF` changes in place (R22). -/
  word   : Word
  /-- `R`: the result register (R23). -/
  r      : Word
  /-- `STATUS`: `CAUSE` in bits [3:0], `STICKY` in bit [8] (R26). -/
  status : StatusWord
  /-- The input line `rst`, true while asserted (R240; log 3). -/
  rst    : Bool
  /-- The operand bus `a` as the host drives it (R21; log 2). -/
  a      : Word
  /-- The operand bus `b` as the host drives it (R21; log 2). -/
  b      : Word
  /-- The model's own: the host's moves still to come, the next one first (R25, R46; log 1). -/
  host   : List HostMove
  deriving DecidableEq, Repr

/-- Right after reset: every register zero (R33, R240). The line `rst` released, the buses zero and no move pending are the
model's own (log 1, 2, 3). -/
def State.reset : State where
  word   := 0#64
  r      := 0#64
  status := 0#16
  rst    := false
  a      := 0#64
  b      := 0#64
  host   := []

end Sys2Proof.Machine
end

