-- ==== Sys2Proof/Machine/Flags.lean ====
section
/-! DEFINITION. The `STATUS` register: its fields, the cause codes and the two ways a command updates it (10_state.md R26 to R29, 60_exceptions.md R201 to R203). -/

namespace Sys2Proof.Machine

open Sys2Proof

/-- The code held in `STATUS.CAUSE` (R201). -/
def BfuError.code : BfuError → BitVec 4
  | .illegalOp => 1#4
  | .reservedField => 2#4
  | .widthRange => 3#4
  | .zeroWidth => 4#4
  | .fieldRange => 5#4
  | .byteIndex => 6#4
  | .swapWidth => 7#4

/-- `STATUS.CAUSE`, bits [3:0] (R26). -/
def causeOf (st : StatusWord) : BitVec 4 := st.extractLsb' 0 4

/-- `STATUS.STICKY`, bit [8] (R26). -/
def stickyOf (st : StatusWord) : Bool := st.getLsbD 8

/-- The output port `err`: 1 exactly when `STATUS.CAUSE != 0` (R29). -/
def errOf (st : StatusWord) : Bool := causeOf st != 0#4

/-- A `STATUS` value from its two fields. The one operation that makes a value for the register: bits [7:4] and [15:9] are
"hardwired to 0" (R26; log 4). -/
def makeStatus (cause : BitVec 4) (sticky : Bool) : StatusWord :=
  cause.setWidth 16 ||| (if sticky then 0x0100#16 else 0#16)

/-- `CAUSE <- 0`, `STICKY` unchanged (R203). -/
def acceptedStatus (st : StatusWord) : StatusWord := makeStatus 0#4 (stickyOf st)

/-- `CAUSE <- c`, `STICKY <- 1` (R202). -/
def rejectedStatus (e : BfuError) : StatusWord := makeStatus e.code true

end Sys2Proof.Machine
end

