-- ==== Sys2Proof/Machine/Operands.lean ====
section
/-! DEFINITION. Operands: the bit and byte positions of a data word (00_scope.md R10, R11, R13), the source word and the value a command reads (30_encoding.md R62). -/

namespace Sys2Proof.Machine

open Sys2Proof

/-- `pos p` of `w`, numbered MSB-first: `pos p of w = w[63 - p]` (R10). -/
def posBit (w : Word) (p : Nat) : Bool := w.getLsbD (63 - p)

/-- `sh(s, n) = 64 - s - n`, the number of word bits below the field (R13). -/
def fieldShift (s n : Nat) : Nat := 64 - s - n

/-- The field `(s, n)` is valid: `1 <= n` and `s + n <= 64` (R13). -/
abbrev ValidField (s n : Nat) : Prop := 1 ≤ n ∧ s + n ≤ 64

/-- `src = (cmd[5] == 0) ? a : WORD` (R62). -/
def State.source (s : State) : Source → Word
  | .busA => s.a
  | .word => s.word

/-- `value = b` (R62). -/
def State.value (s : State) : Word := s.b

end Sys2Proof.Machine
end

