-- ==== Sys2Proof/Machine/Ops.lean ====
section
/-! DEFINITION. The shared operations: the datapath functions named in 00_scope.md R16, the register writes, accepting and rejecting a command (60_exceptions.md R202, R203), and the output ports (10_state.md R34). -/

namespace Sys2Proof.Machine

open Sys2Proof

/-! ## The datapath -/

/-- `bitmask(n)`: "low-order `numBits` bits are 1 and all higher bits are 0", as a number `2^n - 1`, for `n` in 0..64
(R100). Every caller checks `n` first (log 13). -/
def bitmask (n : Nat) : Word := BitVec.ofNat 64 (2 ^ n - 1)

/-- `extract(d, s, n)`: shift right by `64 - s - n`, then mask (R110). -/
def extract (d : Word) (s n : Nat) : Word := (d >>> fieldShift s n) &&& bitmask n

/-- Byte `j` of `v`, counted from the least-significant byte, moved to byte `m - 1 - j` (R111). -/
def byteLane (v : Word) (m j : Nat) : Word := ((v >>> (8 * j)) &&& 0xFF#64) <<< (8 * (m - 1 - j))

/-- The OR of the first `k` byte lanes (R111). -/
def orLanes (v : Word) (m : Nat) : Nat → Word
  | 0 => 0#64
  | k + 1 => orLanes v m k ||| byteLane v m k

/-- `byteswap(v, n)`: the `n / 8` bytes of the right-aligned value, reversed (R111). -/
def byteswap (v : Word) (n : Nat) : Word := orLanes v (n / 8) (n / 8)

/-- `get_bit_field(d, s, n, swapped)` (R112). -/
def getBitField (d : Word) (s n : Nat) : ByteOrder → Word
  | .normal => extract d s n
  | .byteSwapped => byteswap (extract d s n) n

/-- `fmask = bitmask(n) << sh`: "ones exactly at pos s .. pos s+n-1" (R130). -/
def fieldMask (s n : Nat) : Word := bitmask n <<< fieldShift s n

/-- `insert(d, v, s, n) = (d & ~fmask) | ((v & bitmask(n)) << sh)` (R130). -/
def insert (d v : Word) (s n : Nat) : Word :=
  (d &&& ~~~(fieldMask s n)) ||| ((v &&& bitmask n) <<< fieldShift s n)

/-- `byte_of(d, k) = (d >> (56 - 8*k)) & 0xFF`, an 8-bit byte (R140). -/
def byteOf (d : Word) (k : Nat) : Byte := ((d >>> (56 - 8 * k)) &&& 0xFF#64).setWidth 8

/-! ## Register writes and the two ends of a command -/

/-- `R <- v` (R14, R23). -/
def State.writeR (s : State) (v : Word) : State := { s with r := v }

/-- `WORD <- v` (R14, R22). -/
def State.writeWord (s : State) (v : Word) : State := { s with word := v }

/-- A command is accepted: `STATUS.CAUSE <- 0`, `STICKY` unchanged (R203). -/
def State.accept (s : State) : State := { s with status := acceptedStatus s.status }

/-- A command is rejected: only `STATUS` changes (R202). -/
def State.reject (s : State) (e : BfuError) : State := { s with status := rejectedStatus e }

/-- `raise BfuError(c)` "ends the step at once" (R150, R202): the machine goes on in the rejected state. The unit has no trap
entry and no return beside it (R206, R207). -/
def raise (e : BfuError) (s : State) : Host.Outcome State Fault Refusal := .next (s.reject e)

/-- The end of a command: rejected with the error its checks found, or accepted with its writes done (R150, stages 2, 3). -/
def finish (check : Option BfuError) (done : State) (s : State) : Host.Outcome State Fault Refusal :=
  match check with
  | some e => raise e s
  | none => .next done.accept

/-! ## Reset and the ports -/

/-- Every register at its reset value (R33, R240). -/
def State.clear (s : State) : State := { s with word := 0#64, r := 0#64, status := 0#16 }

/-- The registers as the line `rst` leaves them: at their reset values while it is asserted (R240; log 5). -/
def State.underRst (s : State) : State := if s.rst then s.clear else s

/-- What the host observes between commands (R34). -/
structure Ports where
  word   : Word
  result : Word
  status : StatusWord
  err    : Bool
  deriving DecidableEq, Repr

/-- `(word, result, status, err) = (WORD, R, STATUS, STATUS.CAUSE != 0)` (R34). -/
def State.ports (s : State) : Ports :=
  { word := s.word, result := s.r, status := s.status, err := errOf s.status }

end Sys2Proof.Machine
end

