-- ==== Sys2Proof/Machine/BitmaskGenerator.lean ====
section
/-! DEFINITION. `BITMASK` (40_bitmask.md R101, R102). -/

namespace Sys2Proof.Machine

open Sys2Proof

/-- `n` must lie in 0..64 (R102). -/
def bitmaskCheck (n : Nat) : Option BfuError := if n > 64 then some .widthRange else none

/-- `BITMASK #len`: `R <- bitmask(len)` (R101). -/
def execBitmask (len : Nat) (s : State) : Host.Outcome State Fault Refusal :=
  finish (bitmaskCheck len) (s.writeR (bitmask len)) s

end Sys2Proof.Machine
end

