-- ==== Sys2Proof/Machine/ByteExtractor.lean ====
section
/-! DEFINITION. `NTHBYTE` (43_byte_extract.md R141, R142). -/

namespace Sys2Proof.Machine

open Sys2Proof

/-- `k` must lie in 0..7 (R142). -/
def nthbyteCheck (k : Nat) : Option BfuError := if k > 7 then some .byteIndex else none

/-- `NTHBYTE src, #n`: `R <- zext_64(byte_of(d, n))` (R141). -/
def execNthbyte (src : Source) (n : Nat) (s : State) : Host.Outcome State Fault Refusal :=
  finish (nthbyteCheck n) (s.writeR ((byteOf (s.source src) n).setWidth 64)) s

end Sys2Proof.Machine
end

