-- ==== Sys2Proof/Machine/Extractor.lean ====
section
/-! DEFINITION. `GETBF` and `GETBF.SW` (41_extract.md R113, R114). -/

namespace Sys2Proof.Machine

open Sys2Proof

/-- The range checks of `GETBF`, in order: `ZERO_WIDTH`, `FIELD_RANGE`, `SWAP_WIDTH` (R114, R204). -/
def getbfCheck (order : ByteOrder) (s n : Nat) : Option BfuError :=
  if n = 0 then some .zeroWidth
  else if s + n > 64 then some .fieldRange
  else if order = .byteSwapped ∧ n % 8 ≠ 0 then some .swapWidth
  else none

/-- `GETBF src, #pos, #len`: `R <- get_bit_field(d, pos, len, swapped)` (R113). -/
def execGetbf (order : ByteOrder) (src : Source) (pos len : Nat) (s : State) : Host.Outcome State Fault Refusal :=
  finish (getbfCheck order pos len) (s.writeR (getBitField (s.source src) pos len order)) s

end Sys2Proof.Machine
end

