-- ==== Sys2Proof/Machine/Inserter.lean ====
section
/-! DEFINITION. `SETBF` (42_insert.md R131 to R133). -/

namespace Sys2Proof.Machine

open Sys2Proof

/-- The range checks of `SETBF`, in order: `ZERO_WIDTH`, `FIELD_RANGE` (R132, R204; 90_conflicts.md C2). -/
def setbfCheck (s n : Nat) : Option BfuError :=
  if n = 0 then some .zeroWidth
  else if s + n > 64 then some .fieldRange
  else none

/-- `SETBF #pos, #len`: `WORD <- insert(WORD, b, pos, len)`, the `WORD` read being the old one (R131, R150). -/
def execSetbf (pos len : Nat) (s : State) : Host.Outcome State Fault Refusal :=
  finish (setbfCheck pos len) (s.writeWord (insert s.word s.value pos len)) s

end Sys2Proof.Machine
end

