-- ==== Sys2Proof/Machine/Dispatch.lean ====
section
/-! DEFINITION. The meaning of every command: one arm per constructor of `Instr` (30_encoding.md R63). -/

namespace Sys2Proof.Machine

open Sys2Proof

def exec (i : Instr) (s : State) : Host.Outcome State Fault Refusal :=
  match i with
  | .bitmask len => Sys2Proof.Machine.execBitmask len s
  | .getbf order src pos len => Sys2Proof.Machine.execGetbf order src pos len s
  | .setbf pos len => Sys2Proof.Machine.execSetbf pos len s
  | .nthbyte src n => Sys2Proof.Machine.execNthbyte src n s

end Sys2Proof.Machine
end

