-- ==== Sys2Proof/Machine/Port.lean ====
section
/-! DEFINITION. What each move of the host does to the unit: a command at the command port (50_step.md R150, 30_encoding.md R67), the `rst` line and power-on (70_reset_and_hazards.md R240), a read of the ports (10_state.md R34), and no move at all (60_exceptions.md R215). -/

namespace Sys2Proof.Machine

open Sys2Proof

/-- The host drives the operand buses with the command it presents (R8, R21). -/
def State.drive (s : State) (t : Transaction) : State := { s with a := t.a, b := t.b }

/-- The next move is taken; `rest` is still to come (R46). -/
def State.advance (s : State) (rest : List HostMove) : State := { s with host := rest }

/-- One command word: decoded, then rejected or executed (R67, R150). -/
def runWord (w : Cmd) (s : State) : Host.Outcome State Fault Refusal :=
  match decode w with
  | .illegal => raise .illegalOp s
  | .reserved => raise .reservedField s
  | .wellFormed i => exec i s

/-- A command at the port. "A command issued while `rst` is asserted is not accepted and changes nothing" (R240). -/
def issue (t : Transaction) (s : State) : Host.Outcome State Fault Refusal :=
  if s.rst then .next (s.drive t).clear else runWord t.cmd (s.drive t)

/-- `rst` is asserted. A command in flight is abandoned: the host drove its buses and its results are lost (R240; log 6). -/
def assertReset (inFlight : Option Transaction) (s : State) : State :=
  match inFlight with
  | none => { s.clear with rst := true }
  | some t => { (s.drive t).clear with rst := true }

/-- `rst` is released: "While `rst` is asserted, and when it is released, the state is" the reset state (R240). -/
def releaseReset (s : State) : State := { s.underRst with rst := false }

/-- One move of the host. -/
def hostMove (m : HostMove) (s : State) : Host.Outcome State Fault Refusal :=
  match m with
  | .command t => issue t s
  | .assertRst inFlight => .next (assertReset inFlight s)
  | .releaseRst => .next (releaseReset s)
  | .powerOn => .next s.clear
  | .readPorts => .next s.underRst

/-- The host makes no move: the unit "holds its state between commands indefinitely" (R215; log 8). -/
def idle (s : State) : Host.Outcome State Fault Refusal := .next s.underRst

/-- The host presents the command word `w` next, with the buses as they stand, and the line `rst` is not asserted. -/
def State.presentNext (s : State) (w : Cmd) : State :=
  { s with rst := false, host := .command { cmd := w, a := s.a, b := s.b } :: s.host }

end Sys2Proof.Machine
end

