-- ==== Sys2Proof/Machine/Step.lean ====
section
/-! DEFINITION. One step of the machine: the host's next move, or none (20_memory.md R46, 50_step.md R150). -/

namespace Sys2Proof.Machine

open Sys2Proof

/-- The next move of the host is taken and performed whole; "each command completes before the next one is accepted" (R46). -/
def step (s : State) : Host.Outcome State Fault Refusal :=
  match s.host with
  | [] => idle s
  | m :: rest => hostMove m (s.advance rest)

/-- The state in which the very next step runs the opcode-table word `w`: the host presents it next (log 1, 15). -/
def State.withFetchWord (s : State) (nbits w : Nat) : State :=
  s.presentNext (BitVec.ofNat 32 (w % 2 ^ nbits))

end Sys2Proof.Machine
end

