-- ==== Sys2Proof/Machine/Pseudo.lean ====
section
/-! DEFINITION. The expansions of the pseudo-instructions (30_encoding.md R72). -/

namespace Sys2Proof.Machine

open Sys2Proof

/-- The one command a pseudo-instruction expands to (R72). -/
def Pseudo.instr : Pseudo → Instr
  | .ldw _ => .setbf 0 64
  | .clrw => .setbf 0 64
  | .rdw => .getbf .normal .word 0 64
  | .getbit src p => .getbf .normal src p 1
  | .setbit p => .setbf p 1
  | .clrbit p => .setbf p 1
  | .clrbf p len => .setbf p len
  | .getbyte src n => .nthbyte src n

/-- The value the expansion puts on bus `b`, where it names one (R72). -/
def Pseudo.value : Pseudo → Option Word
  | .ldw v => some v
  | .clrw => some 0#64
  | .rdw => none
  | .getbit _ _ => none
  | .setbit _ => some 1#64
  | .clrbit _ => some 0#64
  | .clrbf _ _ => some 0#64
  | .getbyte _ _ => none

/-- The transaction the host presents for a pseudo-instruction; `a` and `b` are the values on the buses where the expansion
names none (R69, R72). -/
def Pseudo.transaction (p : Pseudo) (a b : Word) : Transaction :=
  { cmd := encode (Pseudo.instr p), a := a, b := (Pseudo.value p).getD b }

end Sys2Proof.Machine
end

