-- ==== Sys2Proof/Machine/Assembler.lean ====
section
/-! DEFINITION. The assembler's text: one line to one command word (30_encoding.md R69, R70, R72; log 16). A line is a list of characters. -/

namespace Sys2Proof.Machine.Assembler

open Sys2Proof Sys2Proof.Machine

/-! ## From characters to tokens -/

/-- A character of a name, numeral or immediate; `.` stands in `GETBF.SW` and `.word`, `_` "only groups digits" (R14), `#`
begins an immediate and belongs to it (R69). -/
def isWordChar (c : Char) : Bool := c.isAlphanum || c == '_' || c == '.' || c == '#'

/-- The value of a decimal digit. -/
def decimalDigit (c : Char) : Option Nat :=
  if 48 ≤ c.toNat ∧ c.toNat ≤ 57 then some (c.toNat - 48) else none

/-- The value of a hexadecimal digit. -/
def hexDigit (c : Char) : Option Nat :=
  if 65 ≤ c.toNat ∧ c.toNat ≤ 70 then some (c.toNat - 55)
  else if 97 ≤ c.toNat ∧ c.toNat ≤ 102 then some (c.toNat - 87)
  else decimalDigit c

/-- The next character is a digit. -/
def digitNext (digit : Char → Option Nat) : List Char → Bool
  | [] => false
  | c :: _ => (digit c).isSome

/-- The number that the digits write in the base, after those read so far (`none`: no digit yet). An underscore "only groups
digits" (R14): one stands between two digits. -/
def numeral (base : Nat) (digit : Char → Option Nat) : List Char → Option Nat → Option Nat
  | [], soFar => soFar
  | c :: cs, soFar =>
    if c = '_' then
      if soFar.isSome && digitNext digit cs then numeral base digit cs soFar else none
    else match digit c with
      | some d => numeral base digit cs (some (soFar.getD 0 * base + d))
      | none => none

/-- The numeral of an immediate, "in decimal or `0x` hexadecimal" (R69). -/
def immediateNumeral : List Char → Option Nat
  | '0' :: 'x' :: ds => numeral 16 hexDigit ds none
  | ds => numeral 10 decimalDigit ds none

/-- The token of a run of word characters: an immediate, a `0x` numeral, or a name (R69). A numeral without `#` is a bus or
`.word` value, which R69 and R70 write `0x...`, so one in decimal is no token. -/
def wordToken (cs : List Char) : Option Token :=
  match cs with
  | [] => none
  | '#' :: ds => (immediateNumeral ds).map .imm
  | '0' :: 'x' :: ds => (numeral 16 hexDigit ds none).map .hex
  | c :: _ => if (decimalDigit c).isSome then none else some (.name cs)

/-- The tokens `ts`, after the word whose characters, last first, are `acc`. -/
def closeWord (acc : List Char) (ts : List Token) : Option (List Token) :=
  match acc with
  | [] => some ts
  | _ :: _ => (wordToken acc.reverse).map (· :: ts)

/-- The mark a single character is, or nothing for a space or a tab (R69, log 16; the braces by their codes). -/
def markTokens (c : Char) : Option (List Token) :=
  if c = ',' then some [.comma]
  else if c = '=' then some [.equals]
  else if c.toNat = 123 then some [.openBrace]
  else if c.toNat = 125 then some [.closeBrace]
  else if c = ' ' ∨ c = '\t' then some []
  else none

/-- The tokens of a line; "`;` starts a comment" (R69). `acc` is the word being read, last character first. -/
def tokens : List Char → List Char → Option (List Token)
  | [], acc => closeWord acc []
  | c :: cs, acc =>
    if c = ';' then closeWord acc []
    else if isWordChar c then tokens cs (c :: acc)
    else match markTokens c, tokens cs [] with
      | some marks, some ts => closeWord acc (marks ++ ts)
      | _, _ => none

/-! ## From tokens to a command -/

/-- A name in upper case: "Mnemonics and `src` are case-insensitive", and no other name is (R69). -/
def upper (cs : List Char) : List Char := cs.map Char.toUpper

/-- `A` encodes `SRC = 0` and `W` encodes `SRC = 1` (R69). -/
def source (cs : List Char) : Option Source :=
  if upper cs = ['A'] then some .busA else if upper cs = ['W'] then some .word else none

/-- A bus value of an annotation: it fits 64 bits. -/
def busValue (n : Nat) : Option Word := if n < 2 ^ 64 then some (BitVec.ofNat 64 n) else none

/-- What the operand part of a line stands for. -/
abbrev Body := Sum (Instr ⊕ Pseudo) Cmd

/-- A command of the unit. -/
def command (i : Instr) : Body := .inl (.inl i)

/-- A pseudo-instruction. -/
def pseudo (p : Pseudo) : Body := .inl (.inr p)

/-- Mnemonics, in upper case, followed by one immediate. -/
def oneImmediate (m : List Char) (x : Nat) : Option Body :=
  if m = "BITMASK".toList then some (command (.bitmask x))
  else if m = "SETBIT".toList then some (pseudo (.setbit x))
  else if m = "CLRBIT".toList then some (pseudo (.clrbit x))
  else none

/-- Mnemonics followed by two immediates. -/
def twoImmediates (m : List Char) (x y : Nat) : Option Body :=
  if m = "SETBF".toList then some (command (.setbf x y))
  else if m = "CLRBF".toList then some (pseudo (.clrbf x y))
  else none

/-- Mnemonics followed by a source and one immediate. -/
def sourceImmediate (m : List Char) (src : Source) (x : Nat) : Option Body :=
  if m = "NTHBYTE".toList then some (command (.nthbyte src x))
  else if m = "GETBIT".toList then some (pseudo (.getbit src x))
  else if m = "GETBYTE".toList then some (pseudo (.getbyte src x))
  else none

/-- Mnemonics followed by a source and two immediates. -/
def sourceImmediates (m : List Char) (src : Source) (x y : Nat) : Option Body :=
  if m = "GETBF".toList then some (command (.getbf .normal src x y))
  else if m = "GETBF.SW".toList then some (command (.getbf .byteSwapped src x y))
  else none

/-- Mnemonics without operands; `LDW` takes its value from the annotation (R72). -/
def noOperand (m : List Char) (b : Option Word) : Option Body :=
  if m = "LDW".toList then b.map (fun v => pseudo (.ldw v))
  else if m = "CLRW".toList then some (pseudo .clrw)
  else if m = "RDW".toList then some (pseudo .rdw)
  else none

/-- `.word 0x...` (R70). DEDUCED (log 16): the directive is written in lower case only, since R70 and R71 write it so and R69
frees the case of mnemonics and `src` alone. -/
def rawWord (m : List Char) (n : Nat) : Option Body :=
  if m = ".word".toList ∧ n < 2 ^ 32 then some (.inr (BitVec.ofNat 32 n)) else none

/-- The annotation `{a = 0x..., b = 0x...}`; a bus may be left out (R69). The buses' names are in lower case and their values
in hexadecimal, as R69 writes them. -/
def annotation : List Token → Option (Option Word × Option Word)
  | [] => some (none, none)
  | [.openBrace, .name m, .equals, .hex x, .closeBrace] =>
    if m = ['a'] then (busValue x).map (fun v => (some v, none))
    else if m = ['b'] then (busValue x).map (fun v => (none, some v))
    else none
  | [.openBrace, .name m, .equals, .hex x, .comma, .name k, .equals, .hex y, .closeBrace] =>
    if m = ['a'] ∧ k = ['b'] then
      match busValue x, busValue y with
      | some v, some u => some (some v, some u)
      | _, _ => none
    else none
  | _ => none

/-- The tokens of the operand part, and those that follow it. -/
def split (ts : List Token) : List Token × List Token :=
  (ts.takeWhile (· ≠ .openBrace), ts.dropWhile (· ≠ .openBrace))

/-- The operand part of a line, in the forms of R69, R70 and R72; `b` is the annotation's value of bus `b`. -/
def body (b : Option Word) : List Token → Option Body
  | [.name m] => noOperand (upper m) b
  | [.name m, .hex n] => rawWord m n
  | [.name m, .imm x] => oneImmediate (upper m) x
  | [.name m, .imm x, .comma, .imm y] => twoImmediates (upper m) x y
  | [.name m, .name s, .comma, .imm x] =>
    match source s with
    | some src => sourceImmediate (upper m) src x
    | none => none
  | [.name m, .name s, .comma, .imm x, .comma, .imm y] =>
    match source s with
    | some src => sourceImmediates (upper m) src x y
    | none => none
  | _ => none

/-- The value on bus `b`: the annotation's, or the one the expansion names; a line that gives both is no form of R72, but for
`LDW`, whose annotation is its value. -/
def busB (p : Pseudo) (b : Option Word) : Option (Option Word) :=
  match Pseudo.value p, b with
  | some v, some u => if p = .ldw u then some (some v) else none
  | some v, none => some (some v)
  | none, b => some b

/-- The command word of an instruction whose immediates fit (R70). -/
def checked (i : Instr) (a b : Option Word) : Except AsmError AsmLine :=
  if i.wellFormed then .ok { cmd := encode i, a := a, b := b } else .error .immediateTooLarge

/-- One line: nothing, a command word with its bus values, or a rejection. -/
def assembleTokens (ts : List Token) : Except AsmError (Option AsmLine) :=
  match split ts with
  | ([], []) => .ok none
  | (front, back) =>
    match annotation back with
    | none => .error .badLine
    | some (a, b) =>
      match body b front with
      | none => .error .badLine
      | some (.inr w) => .ok (some { cmd := w, a := a, b := b })
      | some (.inl (.inl i)) => (checked i a b).map some
      | some (.inl (.inr p)) =>
        match busB p b with
        | none => .error .badLine
        | some b' => (checked (Pseudo.instr p) a b').map some

/-- The assembler (R69, R70): an immediate that fits its field but is out of range for the operation is encoded as written. -/
def assemble (line : List Char) : Except AsmError (Option AsmLine) :=
  match tokens line [] with
  | none => .error .badLine
  | some ts => assembleTokens ts

end Sys2Proof.Machine.Assembler
end

