-- ==== Sys2Proof/Machine/Disassembler.lean ====
section
/-! DEFINITION. The disassembler (30_encoding.md R71). -/

namespace Sys2Proof.Machine.Disassembler

open Sys2Proof Sys2Proof.Machine

/-- A digit of a base up to 16, in upper case. -/
def digit (n : Nat) : Char := Char.ofNat (if n < 10 then 48 + n else 55 + n)

/-- A field value in decimal; a field is at most 127 (R71). -/
def decimal (n : Nat) : List Char :=
  if n < 10 then [digit n]
  else if n < 100 then [digit (n / 10), digit (n % 10)]
  else [digit (n / 100), digit (n / 10 % 10), digit (n % 10)]

/-- The low `k` hexadecimal digits of `n`, upper case. -/
def hexDigits (n : Nat) : Nat → List Char
  | 0 => []
  | k + 1 => digit (n / 16 ^ k % 16) :: hexDigits n k

/-- `A` or `W` (R69). -/
def sourceText : Source → List Char
  | .busA => ['A']
  | .word => ['W']

/-- `#len` and the like. -/
def immediate (n : Nat) : List Char := '#' :: decimal n

/-- Operands are parted by a comma and a space (R69). -/
def listOf : List (List Char) → List Char
  | [] => []
  | [x] => x
  | x :: y :: zs => x ++ (", ".toList ++ listOf (y :: zs))

/-- A well-formed command "in the syntax of rule R69, with `POS`, `LEN` and `n` in decimal" (R71). -/
def instrText : Instr → List Char
  | .bitmask len => "BITMASK ".toList ++ listOf [immediate len]
  | .getbf .normal src pos len => "GETBF ".toList ++ listOf [sourceText src, immediate pos, immediate len]
  | .getbf .byteSwapped src pos len => "GETBF.SW ".toList ++ listOf [sourceText src, immediate pos, immediate len]
  | .setbf pos len => "SETBF ".toList ++ listOf [immediate pos, immediate len]
  | .nthbyte src n => "NTHBYTE ".toList ++ listOf [sourceText src, immediate n]

/-- An illegal or reserved word "as `.word 0xXXXXXXXX`, with 8 upper-case hex digits" (R71). -/
def wordText (w : Cmd) : List Char := ".word 0x".toList ++ hexDigits w.toNat 8

/-- The text of a command word (R71). -/
def disassemble (w : Cmd) : List Char :=
  match decode w with
  | .wellFormed i => instrText i
  | .illegal => wordText w
  | .reserved => wordText w

end Sys2Proof.Machine.Disassembler
end

