-- ==== Sys2Proof/Safety.lean ====
section
/-! DEFINITION. The terms in which claims about the BFU speak: legal states, the cause a command word reports by the table of 60_exceptions.md R201 and R204, and the pseudocode of 50_step.md R150 written on the raw bits, and the words of a line of assembler text. -/

namespace Sys2Proof.Machine

open Sys2Proof

/-! ## Legal states -/

/-- `STATUS` as R26 lays it out: reserved bits 0 and `CAUSE` at most 7; and `STICKY` is 1 where a rejection is still shown
(R27, R28). -/
def LegalStatus (st : StatusWord) : Prop :=
  st &&& 0xFEF0#16 = 0#16 ∧ causeOf st ≤ 7#4 ∧ (causeOf st ≠ 0#4 → stickyOf st = true)

/-- "While `rst` is asserted ... the state is" the reset state (R240). -/
def LegalUnderRst (s : State) : Prop :=
  s.rst = true → s.word = 0#64 ∧ s.r = 0#64 ∧ s.status = 0#16

/-- The invariant of every run. -/
def Legal (s : State) : Prop := LegalStatus s.status ∧ LegalUnderRst s

/-! ## The cause of a command word, by the table of R201 in the order of R204 -/

/-- `cmd[hi:lo]`, the unsigned number formed from the bits (R12). -/
def slice (w : Cmd) (hi lo : Nat) : Nat := w.toNat / 2 ^ lo % 2 ^ (hi + 1 - lo)

/-- A reserved bit, or a field the command does not use, is non-zero (R64). -/
def breaksReserved (w : Cmd) : Prop :=
  slice w 7 6 ≠ 0 ∨ slice w 15 15 ≠ 0 ∨ slice w 31 23 ≠ 0 ∨
  (slice w 3 0 = 1 ∧ (slice w 4 4 ≠ 0 ∨ slice w 5 5 ≠ 0 ∨ slice w 14 8 ≠ 0)) ∨
  (slice w 3 0 = 3 ∧ (slice w 4 4 ≠ 0 ∨ slice w 5 5 ≠ 0)) ∨
  (slice w 3 0 = 4 ∧ (slice w 4 4 ≠ 0 ∨ slice w 22 16 ≠ 0))

/-- The condition under which a word has the cause (R201), apart from priority. -/
def hasCause (w : Cmd) : BfuError → Prop
  | .illegalOp => slice w 3 0 = 0 ∨ 5 ≤ slice w 3 0
  | .reservedField => breaksReserved w
  | .widthRange => slice w 3 0 = 1 ∧ 64 < slice w 22 16
  | .zeroWidth => (slice w 3 0 = 2 ∨ slice w 3 0 = 3) ∧ slice w 22 16 = 0
  | .fieldRange => (slice w 3 0 = 2 ∨ slice w 3 0 = 3) ∧ 1 ≤ slice w 22 16 ∧ 64 < slice w 14 8 + slice w 22 16
  | .byteIndex => slice w 3 0 = 4 ∧ 7 < slice w 14 8
  | .swapWidth => slice w 3 0 = 2 ∧ slice w 4 4 = 1 ∧ slice w 22 16 % 8 ≠ 0

/-- `e` is the cause the word reports: it applies, and none that comes earlier in the order of R204 does. Within one opcode
the order is that of the codes. -/
def Reports (w : Cmd) (e : BfuError) : Prop :=
  hasCause w e ∧ ∀ e' : BfuError, e'.code < e.code → ¬ hasCause w e'

/-- The word is accepted: no cause applies (R200). -/
def Accepted (w : Cmd) : Prop := ∀ e : BfuError, ¬ hasCause w e

/-! ## The pseudocode of R150 -/

/-- The three registers (R20). -/
structure Registers where
  word   : Word
  r      : Word
  status : StatusWord
  deriving DecidableEq, Repr

/-- The registers of a state. -/
def State.registers (s : State) : Registers := { word := s.word, r := s.r, status := s.status }

/-- `raise BfuError(c)` (R202). -/
def Registers.reject (g : Registers) (code : Nat) : Registers :=
  { g with status := BitVec.ofNat 16 (0x0100 + code) }

/-- Stage 3 of R150: `STATUS.CAUSE <- 0`, the reserved bits hardwired to 0 (R26). -/
def Registers.accept (g : Registers) : Registers := { g with status := g.status &&& 0x0100#16 }

/-- `MATCH[op]` and `MASK[op]`, the table of R65. -/
def matchMask (op : Nat) : Option (Nat × Nat) :=
  [(1, 0x00000001, 0xFF80FFFF), (2, 0x00000002, 0xFF8080CF), (3, 0x00000003, 0xFF8080FF), (4, 0x00000004, 0xFFFF80DF)].lookup op

/-- Stages 2 and 3 of R150. -/
def pseudocodeCase (g : Registers) (cmd : Cmd) (a b : Word) : Registers :=
  let op := slice cmd 3 0
  let sw := slice cmd 4 4
  let sel := slice cmd 5 5
  let s := slice cmd 14 8
  let n := slice cmd 22 16
  let d := if sel = 0 then a else g.word
  if op = 1 then
    if 64 < n then g.reject 3
    else { g with r := bitmask n }.accept
  else if op = 2 then
    if n = 0 then g.reject 4
    else if 64 < s + n then g.reject 5
    else if sw = 1 ∧ n % 8 ≠ 0 then g.reject 7
    else { g with r := if sw = 1 then byteswap (extract d s n) n else extract d s n }.accept
  else if op = 3 then
    if n = 0 then g.reject 4
    else if 64 < s + n then g.reject 5
    else { g with word := insert g.word b s n }.accept
  else
    if 7 < s then g.reject 6
    else { g with r := (byteOf d s).setWidth 64 }.accept

/-- `step(WORD, R, STATUS, cmd, a, b)` of R150, on the raw bits of the command word. -/
def pseudocodeStep (g : Registers) (cmd : Cmd) (a b : Word) : Registers :=
  match matchMask (slice cmd 3 0) with
  | none => g.reject 1
  | some (pattern, mask) => if cmd.toNat &&& mask ≠ pattern then g.reject 2 else pseudocodeCase g cmd a b

/-! ## Runs of commands -/

/-- The host's moves that issue these commands, one after the other (R46). -/
def commands (ts : List Transaction) : List HostMove := ts.map .command

/-- The registers after the pseudocode of R150 has performed the commands in the order given (R46). -/
def pseudocodeRun (g : Registers) (ts : List Transaction) : Registers :=
  ts.foldl (fun g t => pseudocodeStep g t.cmd t.a t.b) g

/-- A move that resets the unit (R240). -/
def HostMove.resets : HostMove → Bool
  | .assertRst _ => true
  | .powerOn => true
  | .command _ => false
  | .releaseRst => false
  | .readPorts => false

/-! ## Assembler text -/

/-- The numbers an instruction's immediates write (R69). -/
def Instr.immediates : Instr → List Nat
  | .bitmask len => [len]
  | .getbf _ _ pos len => [pos, len]
  | .setbf pos len => [pos, len]
  | .nthbyte _ n => [n]

/-- A text in braces, as a bus annotation stands (R69; braces by their codes). -/
def braced (cs : List Char) : List Char := Char.ofNat 123 :: (cs ++ [Char.ofNat 125])

/-- A line is written `.word 0x...` with the value `n` (R70). -/
def WritesRawWord (line : List Char) (n : Nat) : Prop :=
  ∃ rest, Assembler.tokens line [] = some (.name ".word".toList :: .hex n :: rest)

end Sys2Proof.Machine
end

