-- ==== Sys2Proof/Certificates/Slice0/Obligations.lean ====
section
/-! DEFINITION. The statements about the BFU, file by file of spec/. Rule numbers R<n> are those of spec/. -/

open Sys2Proof Sys2Proof.Machine
open Host.Outcome (next)

/-! ## 30_encoding.md -/

/-- Command words of R66, written out, decode to the commands written beside them there. -/
def Obligations.ExampleWordsDecode : Prop :=
  decode 0x00000001#32 = .wellFormed (.bitmask 0) ∧
  decode 0x00200001#32 = .wellFormed (.bitmask 32) ∧
  decode 0x00400001#32 = .wellFormed (.bitmask 64) ∧
  decode 0x00010002#32 = .wellFormed (.getbf .normal .busA 0 1) ∧
  decode 0x00201002#32 = .wellFormed (.getbf .normal .busA 16 32) ∧
  decode 0x00201012#32 = .wellFormed (.getbf .byteSwapped .busA 16 32) ∧
  decode 0x00040322#32 = .wellFormed (.getbf .normal .word 3 4) ∧
  decode 0x00040303#32 = .wellFormed (.setbf 3 4) ∧
  decode 0x00000404#32 = .wellFormed (.nthbyte .busA 4) ∧
  decode 0x00000724#32 = .wellFormed (.nthbyte .word 7)

/-- R66: the encoding formula, every reserved bit zero, and its examples. The fields do not overlap, so the OR of the
formula is a sum. -/
def Obligations.EncodingFollowsTheFormula : Prop :=
  (∀ i : Instr, i.wellFormed = true →
    (encode i).toNat = match i with
      | .bitmask len => 1 + len * 2 ^ 16
      | .getbf order src pos len => 2 + (if order = .byteSwapped then 2 ^ 4 else 0)
          + (if src = .word then 2 ^ 5 else 0) + pos * 2 ^ 8 + len * 2 ^ 16
      | .setbf pos len => 3 + pos * 2 ^ 8 + len * 2 ^ 16
      | .nthbyte src n => 4 + (if src = .word then 2 ^ 5 else 0) + n * 2 ^ 8) ∧
  (∀ i : Instr, i.wellFormed = true → encode i &&& 0xFF8080C0#32 = 0#32) ∧
  encode (.bitmask 0) = 0x00000001#32 ∧ encode (.bitmask 32) = 0x00200001#32 ∧
  encode (.bitmask 64) = 0x00400001#32 ∧ encode (.getbf .normal .busA 0 1) = 0x00010002#32 ∧
  encode (.getbf .normal .busA 0 9) = 0x00090002#32 ∧ encode (.getbf .normal .busA 16 32) = 0x00201002#32 ∧
  encode (.getbf .byteSwapped .busA 16 32) = 0x00201012#32 ∧ encode (.getbf .normal .word 3 4) = 0x00040322#32 ∧
  encode (.setbf 3 4) = 0x00040303#32 ∧ encode (.nthbyte .busA 4) = 0x00000404#32 ∧
  encode (.nthbyte .word 7) = 0x00000724#32

/-- Every well-formed instruction, with every operand its fields admit, is read back from its word (R61 to R66). -/
def Obligations.DecodeOfEncodeIsTheInstruction : Prop :=
  ∀ i : Instr, i.wellFormed = true → decode (encode i) = .wellFormed i

/-- Every word that decodes to an instruction is the word of that instruction, and of a well-formed one (R61 to R67). -/
def Obligations.EncodeOfDecodeIsTheWord : Prop :=
  ∀ (w : Cmd) (i : Instr), decode w = .wellFormed i → i.wellFormed = true ∧ encode i = w

/-- R65: match and mask of each command, the free bits outside the mask, and no word matches two rows. -/
def Obligations.MatchAndMaskDecideTheCommand : Prop :=
  (∀ w : Cmd,
    ((∃ len, decode w = .wellFormed (.bitmask len)) ↔ w &&& 0xFF80FFFF#32 = 0x00000001#32) ∧
    ((∃ order src pos len, decode w = .wellFormed (.getbf order src pos len)) ↔ w &&& 0xFF8080CF#32 = 0x00000002#32) ∧
    ((∃ pos len, decode w = .wellFormed (.setbf pos len)) ↔ w &&& 0xFF8080FF#32 = 0x00000003#32) ∧
    ((∃ src n, decode w = .wellFormed (.nthbyte src n)) ↔ w &&& 0xFFFF80DF#32 = 0x00000004#32)) ∧
  (∀ (w : Cmd) (op op' : Opcode), w &&& op.mask = op.pattern → w &&& op'.mask = op'.pattern → op = op') ∧
  ~~~0xFF80FFFF#32 = (0x7F#32 <<< 16) ∧
  ~~~0xFF8080CF#32 = (0x7F#32 <<< 16) ||| (0x7F#32 <<< 8) ||| (1#32 <<< 5) ||| (1#32 <<< 4) ∧
  ~~~0xFF8080FF#32 = (0x7F#32 <<< 16) ||| (0x7F#32 <<< 8) ∧
  ~~~0xFFFF80DF#32 = (0x7F#32 <<< 8) ||| (1#32 <<< 5)

/-- R67, step 1, with R63 and the columns of R64: a word is illegal exactly when `OP` is not 1 to 4, reserved exactly when
`OP` is 1 to 4 and a reserved bit or a field the command does not use is non-zero, and well-formed otherwise; a well-formed
word's operands are its fields. -/
def Obligations.DecodeSortsWordsByTheirFields : Prop :=
  ∀ w : Cmd,
    (decode w = .illegal ↔ slice w 3 0 = 0 ∨ 5 ≤ slice w 3 0) ∧
    (decode w = .reserved ↔ (1 ≤ slice w 3 0 ∧ slice w 3 0 ≤ 4) ∧ breaksReserved w) ∧
    (∀ i, decode w = .wellFormed i → match i with
      | .bitmask len => slice w 3 0 = 1 ∧ len = slice w 22 16
      | .getbf order src pos len => slice w 3 0 = 2 ∧ (order = .byteSwapped ↔ slice w 4 4 = 1) ∧
          (src = .word ↔ slice w 5 5 = 1) ∧ pos = slice w 14 8 ∧ len = slice w 22 16
      | .setbf pos len => slice w 3 0 = 3 ∧ pos = slice w 14 8 ∧ len = slice w 22 16
      | .nthbyte src n => slice w 3 0 = 4 ∧ (src = .word ↔ slice w 5 5 = 1) ∧ n = slice w 14 8)

/-- R68: every illegal or reserved word is rejected, and only `STATUS` changes (the buses and the list of moves are the
host's). -/
def Obligations.IllegalAndReservedWordsAreRejected : Prop :=
  ∀ (s : State) (t : Transaction) (rest : List HostMove), s.rst = false → s.host = .command t :: rest →
    (decode t.cmd = .illegal → step s = next { s with status := 0x0101#16, a := t.a, b := t.b, host := rest }) ∧
    (decode t.cmd = .reserved → step s = next { s with status := 0x0102#16, a := t.a, b := t.b, host := rest })

/-- R72: the word of each pseudo-instruction and its effect when accepted, on the machine's step. -/
def Obligations.PseudoInstructionsDoWhatTheirRowsSay : Prop :=
  (∀ v, encode (Pseudo.instr (.ldw v)) = 0x00400003#32) ∧
  encode (Pseudo.instr .clrw) = 0x00400003#32 ∧
  encode (Pseudo.instr .rdw) = 0x00400022#32 ∧
  (∀ src p, p ≤ 127 → encode (Pseudo.instr (.getbit src p)) = 0x00010002#32 + (src.bit <<< 5) + (BitVec.ofNat 32 p <<< 8)) ∧
  (∀ p, p ≤ 127 → encode (Pseudo.instr (.setbit p)) = 0x00010003#32 + (BitVec.ofNat 32 p <<< 8)) ∧
  (∀ p, p ≤ 127 → encode (Pseudo.instr (.clrbit p)) = 0x00010003#32 + (BitVec.ofNat 32 p <<< 8)) ∧
  (∀ p len, p ≤ 127 → len ≤ 127 →
    encode (Pseudo.instr (.clrbf p len)) = 0x00000003#32 + (BitVec.ofNat 32 p <<< 8) + (BitVec.ofNat 32 len <<< 16)) ∧
  (∀ src n, n ≤ 127 →
    encode (Pseudo.instr (.getbyte src n)) = 0x00000004#32 + (src.bit <<< 5) + (BitVec.ofNat 32 n <<< 8)) ∧
  (∀ (s : State) (p : Pseudo) (a b : Word) (rest : List HostMove), s.rst = false →
    s.host = .command (Pseudo.transaction p a b) :: rest →
    (match p with
      | .ldw _ => True | .clrw => True | .rdw => True
      | .getbit _ p => p ≤ 63 | .setbit p => p ≤ 63 | .clrbit p => p ≤ 63
      | .clrbf p len => ValidField p len | .getbyte _ n => n ≤ 7) →
    ∃ u, step s = next u ∧ causeOf u.status = 0#4 ∧
      match p with
      | .ldw v => u.word = v
      | .clrw => u.word = 0#64
      | .rdw => u.r = s.word
      | .getbit src p => u.r = if posBit (if src = .busA then a else s.word) p then 1#64 else 0#64
      | .setbit p => ∀ q < 64, posBit u.word q = if q = p then true else posBit s.word q
      | .clrbit p => ∀ q < 64, posBit u.word q = if q = p then false else posBit s.word q
      | .clrbf p len => ∀ q < 64, posBit u.word q = if p ≤ q ∧ q < p + len then false else posBit s.word q
      | .getbyte src n => u.r = (byteOf (if src = .busA then a else s.word) n).setWidth 64) ∧
  (∀ (src : Source) (s : State), ∃ u, exec (.getbf .normal src 0 64) s = next u ∧ u.r = s.source src)

/-- R69 to R71 on lines of text: 127 fits and 128 does not; an out-of-range immediate is encoded as written; a form R69 does
not give is rejected (an upper-case prefix, no `#`, a bus named in upper case, a bus value in decimal; that `.WORD` is none is
DEDUCED, log 16); illegal and reserved words print as `.word` with eight upper-case hexadecimal digits. -/
def Obligations.AssemblerAndDisassemblerExamples : Prop :=
  Assembler.assemble "BITMASK #127".toList = .ok (some ⟨0x007F0001#32, none, none⟩) ∧
  Assembler.assemble "BITMASK #128".toList = .error .immediateTooLarge ∧
  Assembler.assemble "BITMASK #65".toList = .ok (some ⟨0x00410001#32, none, none⟩) ∧
  Assembler.assemble "GETBF A, #60, #8".toList = .ok (some ⟨0x00083C02#32, none, none⟩) ∧
  Assembler.assemble "nthbyte a, #8 ; out of range".toList = .ok (some ⟨0x00000804#32, none, none⟩) ∧
  Assembler.assemble "NTHBYTE #8".toList = .error .badLine ∧
  Assembler.assemble "BITMASK #0x41".toList = .ok (some ⟨0x00410001#32, none, none⟩) ∧
  Assembler.assemble "BITMASK #0X41".toList = .error .badLine ∧
  Assembler.assemble "BITMASK 65".toList = .error .badLine ∧
  Assembler.assemble ".word 0x0020_8002".toList = .ok (some ⟨0x00208002#32, none, none⟩) ∧
  Assembler.assemble ".WORD 0x0020_8002".toList = .error .badLine ∧
  Assembler.assemble ("SETBF #3, #4 ".toList ++ braced "a = 0x1, b = 0xF".toList) =
    .ok (some ⟨0x00040303#32, some 1#64, some 0xF#64⟩) ∧
  Assembler.assemble ("SETBF #3, #4 ".toList ++ braced "B = 0xF".toList) = .error .badLine ∧
  Assembler.assemble ("SETBF #3, #4 ".toList ++ braced "b = 15".toList) = .error .badLine ∧
  Disassembler.disassemble 0x0000000F#32 = ".word 0x0000000F".toList ∧
  Disassembler.disassemble 0x80201002#32 = ".word 0x80201002".toList ∧
  Disassembler.disassemble 0x00410001#32 = "BITMASK #65".toList ∧
  Disassembler.disassemble 0x00201012#32 = "GETBF.SW A, #16, #32".toList

/-- R69 to R71: the text the disassembler prints for a word, any of the 2^32, assembles back to that word. -/
def Obligations.DisassembledTextAssemblesBack : Prop :=
  ∀ w : Cmd, Assembler.assemble (Disassembler.disassemble w) = .ok (some { cmd := w, a := none, b := none })

/-- R70: an immediate "that does not fit its 7-bit field: a value above 127" is rejected, and one that fits is encoded as
written, whatever the operation's own range; for every command line with immediates of at most three decimal digits, laid out
as R69 shows it. -/
def Obligations.AssemblerChecksOnlyTheFieldWidth : Prop :=
  ∀ i : Instr, (∀ n ∈ Instr.immediates i, n < 1000) →
    Assembler.assemble (Disassembler.instrText i) =
      if ∀ n ∈ Instr.immediates i, n ≤ 127 then .ok (some { cmd := encode i, a := none, b := none })
      else .error .immediateTooLarge

/-- R70: "There is no assembler syntax for setting a reserved bit. Such words can only be written as `.word 0x...`": every
line of text that the assembler accepts gives a well-formed word, or is written `.word` with the word it gives. -/
def Obligations.ReservedBitsAreOnlyWrittenAsRawWords : Prop :=
  ∀ (line : List Char) (l : AsmLine), Assembler.assemble line = .ok (some l) →
    (∃ i, decode l.cmd = .wellFormed i ∧ i.wellFormed = true) ∨ WritesRawWord line l.cmd.toNat

/-! ## 40_bitmask.md -/

/-- R100: the value of `bitmask(n)`, as a number, bit by bit, by MSB-first positions, and at the widths the document names. -/
def Obligations.BitmaskBitByBit : Prop :=
  (∀ n ≤ 64, (bitmask n).toNat = 2 ^ n - 1 ∧
    (∀ i < 64, (bitmask n).getLsbD i = decide (i < n)) ∧
    (∀ p < 64, posBit (bitmask n) p = decide (64 - n ≤ p))) ∧
  bitmask 0 = 0#64 ∧ bitmask 64 = 0xFFFFFFFFFFFFFFFF#64 ∧ bitmask 32 = 0x00000000FFFFFFFF#64

/-- R102: `BITMASK` is performed for every width 0 to 64, and rejected with `WIDTH_RANGE` above. Nothing else changes. -/
def Obligations.BitmaskWidthRange : Prop :=
  ∀ (n : Nat) (s : State),
    (n ≤ 64 → exec (.bitmask n) s = next { s with r := BitVec.ofNat 64 (2 ^ n - 1), status := s.status &&& 0x0100#16 }) ∧
    (64 < n → exec (.bitmask n) s = next { s with status := 0x0103#16 })

/-- R103: the laws of the bitmask generator. -/
def Obligations.BitmaskLaws : Prop :=
  (∀ n ≤ 64,
    ((List.range 64).filter (fun i => (bitmask n).getLsbD i)).length = n ∧
    (n < 64 → bitmask (n + 1) = (bitmask n <<< 1) ||| 1#64) ∧
    (1 ≤ n → bitmask (n - 1) = bitmask n >>> 1) ∧
    (∀ i < 64, (~~~(bitmask n)).getLsbD i = decide (n ≤ i)) ∧
    (∀ m ≤ n, bitmask m &&& bitmask n = bitmask m)) ∧
  bitmask 0 = 0#64 ∧ bitmask 64 = 0xFFFFFFFFFFFFFFFF#64 ∧
  (∀ s n, ValidField s n →
    (∀ p < 64, posBit (bitmask n <<< fieldShift s n) p = decide (s ≤ p ∧ p < s + n)) ∧
    (bitmask n).toNat * 2 ^ fieldShift s n < 2 ^ 64)

/-! ## 41_extract.md -/

/-- R110: the extracted field, by the document's algorithm, bit by bit, and by MSB-first positions. -/
def Obligations.ExtractBitByBit : Prop :=
  ∀ (d : Word) (s n : Nat), ValidField s n →
    64 - s - n ≤ 63 ∧ extract d s n = (d >>> (64 - s - n)) &&& bitmask n ∧
    (∀ i < n, (extract d s n).getLsbD i = d.getLsbD (64 - s - n + i)) ∧
    (∀ i, n ≤ i → (extract d s n).getLsbD i = false) ∧
    (∀ j < n, (extract d s n).getLsbD (n - 1 - j) = posBit d (s + j))

/-- R111: the byte swap, by its formula and byte by byte. -/
def Obligations.ByteswapReversesTheBytes : Prop :=
  (∀ (v : Word) (n : Nat), n % 8 = 0 → 8 ≤ n → n ≤ 64 → v.toNat < 2 ^ n →
    byteswap v n = (List.range (n / 8)).foldl
      (fun acc j => acc ||| (((v >>> (8 * j)) &&& 0xFF#64) <<< (8 * (n / 8 - 1 - j)))) 0#64 ∧
    (∀ j < n / 8, (byteswap v n).extractLsb' (8 * (n / 8 - 1 - j)) 8 = v.extractLsb' (8 * j) 8) ∧
    (∀ i, n ≤ i → (byteswap v n).getLsbD i = false)) ∧
  (∀ v : Word, v.toNat < 2 ^ 8 → byteswap v 8 = v)

/-- `GETBF` (R112, R113): where its checks pass, `R` takes the field, its bytes reversed with `SW`, `CAUSE` becomes 0, and
nothing else changes. `WORD` is never written, even as the source. -/
def Obligations.GetbfReturnsTheField : Prop :=
  ∀ (order : ByteOrder) (src : Source) (pos len : Nat) (s : State),
    ValidField pos len → (order = .byteSwapped → len % 8 = 0) →
    exec (.getbf order src pos len) s = next { s with
      r := (let field := ((if src = .busA then s.a else s.word) >>> (64 - pos - len)) &&& BitVec.ofNat 64 (2 ^ len - 1)
            if order = .byteSwapped then byteswap field len else field)
      status := s.status &&& 0x0100#16 }

/-- R114: the range checks of `GETBF`, in this order, each rejecting with its own cause and changing only `STATUS`; where
none applies the command is accepted. -/
def Obligations.GetbfRangeChecksInOrder : Prop :=
  ∀ (order : ByteOrder) (src : Source) (pos len : Nat) (s : State),
    (len = 0 → exec (.getbf order src pos len) s = next { s with status := 0x0104#16 }) ∧
    (len ≠ 0 → 64 < pos + len → exec (.getbf order src pos len) s = next { s with status := 0x0105#16 }) ∧
    (len ≠ 0 → pos + len ≤ 64 → order = .byteSwapped → len % 8 ≠ 0 →
      exec (.getbf order src pos len) s = next { s with status := 0x0107#16 }) ∧
    (len ≠ 0 → pos + len ≤ 64 → (order = .byteSwapped → len % 8 = 0) →
      ∃ u, exec (.getbf order src pos len) s = next u ∧ causeOf u.status = 0#4)

/-- `GETBF` by the document's own positions (R10, R13, R15, R115): result bit `len-1-j` is `pos pos+j` of the source, and no
bit above the field is set. -/
def Obligations.GetbfResultByPositions : Prop :=
  ∀ (src : Source) (pos len : Nat) (s : State), ValidField pos len →
    ∃ u, exec (.getbf .normal src pos len) s = next u ∧
      (∀ j < len, u.r.getLsbD (len - 1 - j) = posBit (s.source src) (pos + j)) ∧ u.r.toNat < 2 ^ len

/-- R116: the laws of the extractor. -/
def Obligations.ExtractorLaws : Prop :=
  (∀ (d : Word) (s n : Nat), ValidField s n →
    (extract d s n).toNat < 2 ^ n ∧
    (∀ m, 1 ≤ m → m < n → extract d s n = (extract d s m <<< (n - m)) ||| extract d (s + m) (n - m))) ∧
  (∀ d : Word, extract d 0 64 = d) ∧
  (∀ (v : Word) (n : Nat), n % 8 = 0 → 8 ≤ n → n ≤ 64 → v.toNat < 2 ^ n → byteswap (byteswap v n) n = v) ∧
  (∀ (d : Word), ∀ k ≤ 7, extract d (8 * k) 8 = (byteOf d k).setWidth 64)

/-! ## 42_insert.md -/

/-- R130: the inserted word, by the document's algorithm and bit by bit; neither shift loses a bit. -/
def Obligations.InsertBitByBit : Prop :=
  ∀ (d v : Word) (s n : Nat), ValidField s n →
    insert d v s n = (d &&& ~~~(bitmask n <<< (64 - s - n))) ||| ((v &&& bitmask n) <<< (64 - s - n)) ∧
    (bitmask n).toNat * 2 ^ (64 - s - n) < 2 ^ 64 ∧ (v &&& bitmask n).toNat * 2 ^ (64 - s - n) < 2 ^ 64 ∧
    ∀ i < 64, (insert d v s n).getLsbD i =
      if 64 - s - n ≤ i ∧ i < 64 - s - n + n then v.getLsbD (i - (64 - s - n)) else d.getLsbD i

/-- `SETBF` (R131): on every valid field, `WORD` takes the merged word, `CAUSE` becomes 0, and nothing else changes; `R` is
unchanged and bus `a` ignored. -/
def Obligations.SetbfWritesTheField : Prop :=
  ∀ (pos len : Nat) (s : State), ValidField pos len →
    exec (.setbf pos len) s = next { s with
      word := (s.word &&& ~~~(BitVec.ofNat 64 (2 ^ len - 1) <<< (64 - pos - len))) |||
        ((s.b &&& BitVec.ofNat 64 (2 ^ len - 1)) <<< (64 - pos - len))
      status := s.status &&& 0x0100#16 }

/-- `SETBF` by the document's own positions (R22, R131, R134): "leaving all bits outside the target field unchanged". -/
def Obligations.SetbfKeepsBitsOutsideTheField : Prop :=
  ∀ (pos len : Nat) (s : State), ValidField pos len →
    ∃ u, exec (.setbf pos len) s = next u ∧ u.r = s.r ∧
      ∀ p < 64, posBit u.word p =
        if pos ≤ p ∧ p < pos + len then s.b.getLsbD (pos + len - 1 - p) else posBit s.word p

/-- R132: the range checks of `SETBF`, in this order; a rejected `SETBF` leaves `WORD` unchanged. -/
def Obligations.SetbfRangeChecksInOrder : Prop :=
  ∀ (pos len : Nat) (s : State),
    (len = 0 → exec (.setbf pos len) s = next { s with status := 0x0104#16 }) ∧
    (len ≠ 0 → 64 < pos + len → exec (.setbf pos len) s = next { s with status := 0x0105#16 }) ∧
    (len ≠ 0 → pos + len ≤ 64 → ∃ u, exec (.setbf pos len) s = next u ∧ causeOf u.status = 0#4)

/-- R133: bits of the value above the field's width make no difference, and are no error; with the rule's example. -/
def Obligations.SetbfDiscardsExcessValueBits : Prop :=
  (∀ (pos len : Nat) (s : State) (v v' : Word), ValidField pos len → (∀ i < len, v.getLsbD i = v'.getLsbD i) →
    ∃ u u', exec (.setbf pos len) { s with b := v } = next u ∧ exec (.setbf pos len) { s with b := v' } = next u' ∧
      u.registers = u'.registers ∧ causeOf u.status = 0#4) ∧
  (∀ s : State, s.word = 0x0123456789ABCDEF#64 → s.b = 0xFFFFFFFFFFFFFFF5#64 →
    exec (.setbf 60 4) s = next { s with word := 0x0123456789ABCDE5#64, status := s.status &&& 0x0100#16 })

/-- R135: the laws of the inserter. -/
def Obligations.InserterLaws : Prop :=
  (∀ (d v : Word) (s n : Nat), ValidField s n →
    (v.toNat < 2 ^ n → extract (insert d v s n) s n = v) ∧
    extract (insert d v s n) s n = v &&& bitmask n ∧
    insert d v s n &&& ~~~(fieldMask s n) = d &&& ~~~(fieldMask s n) ∧
    insert (insert d v s n) v s n = insert d v s n ∧
    (∀ v' : Word, insert (insert d v s n) v' s n = insert d v' s n) ∧
    insert d (extract d s n) s n = d) ∧
  (∀ (d v v' : Word) (s n s' n' : Nat), ValidField s n → ValidField s' n' → (s + n ≤ s' ∨ s' + n' ≤ s) →
    insert (insert d v s n) v' s' n' = insert (insert d v' s' n') v s n)

/-! ## 43_byte_extract.md -/

/-- R140: byte `k` of a word, by its formula, bit by bit, and as the general path gives it. -/
def Obligations.ByteOfBitByBit : Prop :=
  ∀ (d : Word), ∀ k ≤ 7,
    byteOf d k = ((d >>> (56 - 8 * k)) &&& 0xFF#64).setWidth 8 ∧
    byteOf d k = d.extractLsb' (56 - 8 * k) 8 ∧
    (∀ j < 8, (byteOf d k).getLsbD (7 - j) = posBit d (8 * k + j)) ∧
    (byteOf d k).setWidth 64 = extract d (8 * k) 8

/-- `NTHBYTE` (R141): for every index 0 to 7, `R` takes the byte, zero-extended, `CAUSE` becomes 0, and nothing else changes. -/
def Obligations.NthbyteReturnsTheByte : Prop :=
  ∀ (src : Source) (n : Nat) (s : State), n ≤ 7 →
    exec (.nthbyte src n) s = next { s with
      r := (((if src = .busA then s.a else s.word) >>> (56 - 8 * n)) &&& 0xFF#64)
      status := s.status &&& 0x0100#16 }

/-- R142: an index above 7 is rejected with `BYTE_INDEX`, and one of 0 to 7 accepted. -/
def Obligations.NthbyteIndexRange : Prop :=
  ∀ (src : Source) (k : Nat) (s : State),
    (7 < k → exec (.nthbyte src k) s = next { s with status := 0x0106#16 }) ∧
    (k ≤ 7 → ∃ u, exec (.nthbyte src k) s = next u ∧ causeOf u.status = 0#4)

/-- "Byte/bit consistency" (R42, R143): `NTHBYTE` with index `k` does exactly what `GETBF` does with `POS = 8k`, `LEN = 8`. -/
def Obligations.NthbyteAgreesWithGetbf : Prop :=
  ∀ (src : Source) (k : Nat) (s : State), k ≤ 7 → exec (.nthbyte src k) s = exec (.getbf .normal src (8 * k) 8) s

/-! ## 50_step.md, 20_memory.md -/

/-- A step runs the decoded command: with the buses as the transaction drives them and the move taken from the list. -/
def Obligations.StepRunsTheDecodedCommand : Prop :=
  ∀ (s : State) (t : Transaction) (rest : List HostMove) (i : Instr), s.rst = false → s.host = .command t :: rest →
    decode t.cmd = .wellFormed i → step s = exec i { s with a := t.a, b := t.b, host := rest }

/-- R150: a command at the port performs the pseudocode `step(WORD, R, STATUS, cmd, a, b)`, written on the raw bits of the
command word, for every one of the 2^32 words. -/
def Obligations.StepPerformsThePseudocode : Prop :=
  ∀ (s : State) (t : Transaction) (rest : List HostMove), s.rst = false → s.host = .command t :: rest →
    ∃ u, step s = next u ∧ u.registers = pseudocodeStep s.registers t.cmd t.a t.b ∧ u.rst = false ∧ u.host = rest

/-- R46: commands are performed one at a time, in the order issued, each on what the one before left. -/
def Obligations.CommandsArePerformedInIssueOrder : Prop :=
  ∀ (ts : List Transaction) (s : State) (rest : List HostMove), s.rst = false → s.host = commands ts ++ rest →
    ∃ u, core.run ts.length s = next u ∧ u.registers = pseudocodeRun s.registers ts ∧ u.rst = false ∧ u.host = rest

/-- The machine never stops (R67, R200, R244): every state has a next state. -/
def Obligations.EveryStepAnswersANextState : Prop :=
  ∀ s : State, ∃ u, step s = next u

/-- R151: the step changes at most two registers: `STATUS`, and one of `WORD` or `R`. -/
def Obligations.OutcomeTableOfEveryCommand : Prop :=
  ∀ (s : State) (t : Transaction) (rest : List HostMove), s.rst = false → s.host = .command t :: rest →
    ∃ u, step s = next u ∧
      (Accepted t.cmd → causeOf u.status = 0#4 ∧ stickyOf u.status = stickyOf s.status ∧
        (slice t.cmd 3 0 = 3 → u.r = s.r ∧ u.word = insert s.word t.b (slice t.cmd 14 8) (slice t.cmd 22 16)) ∧
        (slice t.cmd 3 0 ≠ 3 → u.word = s.word ∧ ∃ i, decode t.cmd = .wellFormed i ∧ u.r = match i with
          | .bitmask len => bitmask len
          | .getbf order src pos len => getBitField (if src = .busA then t.a else s.word) pos len order
          | .setbf _ _ => s.r
          | .nthbyte src n => (byteOf (if src = .busA then t.a else s.word) n).setWidth 64)) ∧
      (¬ Accepted t.cmd → u.word = s.word ∧ u.r = s.r ∧ 1#4 ≤ causeOf u.status ∧ causeOf u.status ≤ 7#4 ∧
        stickyOf u.status = true)

/-- The frame of every command (R20, R21, R26, R151): the host's lines and moves, and the reserved bits of `STATUS`, are as
before in a state whose `STATUS` is legal; `WORD` or `R` is unchanged. The premise only rules out reserved bits that are 1. -/
def Obligations.CommandsKeepEverythingElse : Prop :=
  ∀ (i : Instr) (s : State), s.status &&& 0xFEF0#16 = 0#16 →
    ∃ u, exec i s = next u ∧ u.a = s.a ∧ u.b = s.b ∧ u.rst = s.rst ∧ u.host = s.host ∧
      u.status &&& 0xFEF0#16 = s.status &&& 0xFEF0#16 ∧ (u.word = s.word ∨ u.r = s.r) ∧
      ((∀ pos len, i ≠ .setbf pos len) → u.word = s.word) ∧ (∀ pos len, i = .setbf pos len → u.r = s.r)

/-- A bus that a command does not read has no effect on the registers (R62, R64). -/
def Obligations.UnreadBusesHaveNoEffect : Prop :=
  ∀ (s : State) (x y : Word),
    (∀ len, ∃ u u', exec (.bitmask len) s = next u ∧ exec (.bitmask len) { s with a := x, b := y } = next u' ∧
      u.registers = u'.registers) ∧
    (∀ order pos len, ∃ u u', exec (.getbf order .word pos len) s = next u ∧
      exec (.getbf order .word pos len) { s with a := x, b := y } = next u' ∧ u.registers = u'.registers) ∧
    (∀ order pos len, ∃ u u', exec (.getbf order .busA pos len) s = next u ∧
      exec (.getbf order .busA pos len) { s with b := y } = next u' ∧ u.registers = u'.registers) ∧
    (∀ pos len, ∃ u u', exec (.setbf pos len) s = next u ∧ exec (.setbf pos len) { s with a := x } = next u' ∧
      u.registers = u'.registers) ∧
    (∀ n, ∃ u u', exec (.nthbyte .word n) s = next u ∧ exec (.nthbyte .word n) { s with a := x, b := y } = next u' ∧
      u.registers = u'.registers) ∧
    (∀ n, ∃ u u', exec (.nthbyte .busA n) s = next u ∧ exec (.nthbyte .busA n) { s with b := y } = next u' ∧
      u.registers = u'.registers)

/-- Repeating a command gives the same `WORD` and `R` as issuing it once (R45). -/
def Obligations.RepeatedCommandGivesTheSameWordAndResult : Prop :=
  ∀ (i : Instr) (s : State), ∃ u u', exec i s = next u ∧ exec i u = next u' ∧ u'.word = u.word ∧ u'.r = u.r

/-- Two commands on the machine: what `SETBF` wrote into a field, `GETBF` from `WORD` reads back (R42, R135, R242). -/
def Obligations.WrittenFieldIsReadBack : Prop :=
  ∀ (s : State) (t t' : Transaction) (rest : List HostMove) (pos len : Nat), s.rst = false →
    s.host = .command t :: .command t' :: rest → decode t.cmd = .wellFormed (.setbf pos len) →
    decode t'.cmd = .wellFormed (.getbf .normal .word pos len) → ValidField pos len →
    ∃ u, core.run 2 s = next u ∧ u.word = insert s.word t.b pos len ∧ u.r = t.b &&& bitmask len ∧ u.host = rest

/-! ## 60_exceptions.md, 10_state.md: STATUS -/

/-- R201, R204: every word has exactly one outcome; the cause it reports is the first of the table that applies, in the
order of R204; codes 8 to 15 are never produced. With the four examples of R204. -/
def Obligations.CauseReportedIsTheFirstThatApplies : Prop :=
  (∀ w : Cmd, (Accepted w ∧ ¬ ∃ e, Reports w e) ∨ (¬ Accepted w ∧ ∃ e, Reports w e ∧ ∀ e', Reports w e' → e' = e)) ∧
  (∀ (s : State) (t : Transaction) (rest : List HostMove), s.rst = false → s.host = .command t :: rest →
    ∃ u, step s = next u ∧ causeOf u.status ≤ 7#4 ∧ (Accepted t.cmd → causeOf u.status = 0#4) ∧
      (Reports t.cmd .illegalOp → causeOf u.status = 1#4) ∧ (Reports t.cmd .reservedField → causeOf u.status = 2#4) ∧
      (Reports t.cmd .widthRange → causeOf u.status = 3#4) ∧ (Reports t.cmd .zeroWidth → causeOf u.status = 4#4) ∧
      (Reports t.cmd .fieldRange → causeOf u.status = 5#4) ∧ (Reports t.cmd .byteIndex → causeOf u.status = 6#4) ∧
      (Reports t.cmd .swapWidth → causeOf u.status = 7#4) ∧
      (∀ e, Reports t.cmd e → u.word = s.word ∧ u.r = s.r)) ∧
  Reports (encode (.getbf .byteSwapped .busA 60 9)) .fieldRange ∧
  Reports (encode (.getbf .byteSwapped .busA 0 0)) .zeroWidth ∧
  Reports 0x00000013#32 .reservedField ∧ Reports 0x00000000#32 .illegalOp

/-- R202: rejecting a command with cause `c` writes `CAUSE` and `STICKY` and nothing else of the unit; afterwards `err` is 1. -/
def Obligations.RejectionChangesOnlyStatus : Prop :=
  ∀ (s : State) (t : Transaction) (rest : List HostMove) (e : BfuError), s.rst = false → s.host = .command t :: rest →
    Reports t.cmd e →
    ∃ st : StatusWord, step s = next { s with status := st, a := t.a, b := t.b, host := rest } ∧
      causeOf st = e.code ∧ stickyOf st = true ∧ errOf st = true

/-- R203: accepting a command ends with `CAUSE = 0` and `STICKY` unchanged, `err` is 0, and the operation's own write is the
one its rule gives. -/
def Obligations.AcceptanceClearsCauseAndKeepsSticky : Prop :=
  ∀ (s : State) (t : Transaction) (rest : List HostMove), s.rst = false → s.host = .command t :: rest → Accepted t.cmd →
    ∃ u, step s = next u ∧ causeOf u.status = 0#4 ∧ stickyOf u.status = stickyOf s.status ∧ errOf u.status = false ∧
      u.word = (pseudocodeStep s.registers t.cmd t.a t.b).word ∧ u.r = (pseudocodeStep s.registers t.cmd t.a t.b).r

/-- R29: `err` is 1 exactly when `STATUS.CAUSE != 0`; so after each command it says whether that command was rejected. -/
def Obligations.ErrSaysWhetherTheCommandWasRejected : Prop :=
  (∀ s : State, s.ports.err = true ↔ causeOf s.status ≠ 0#4) ∧
  (∀ (s : State) (t : Transaction) (rest : List HostMove), s.rst = false → s.host = .command t :: rest →
    ∃ u, step s = next u ∧ (u.ports.err = true ↔ ¬ Accepted t.cmd))

/-- R28: after any sequence of commands `STICKY` is 1 exactly when it was 1 before, or at least one of them was rejected. -/
def Obligations.StickyRecordsAnyRejection : Prop :=
  ∀ (ts : List Transaction) (s : State) (rest : List HostMove), s.rst = false → s.host = commands ts ++ rest →
    ∃ u, core.run ts.length s = next u ∧
      (stickyOf u.status = true ↔ stickyOf s.status = true ∨ ∃ t ∈ ts, ¬ Accepted t.cmd)

/-- No command's result depends on `CAUSE` or `STICKY` (R30, R207): two states that differ only in `STATUS` have the same
`WORD`, `R` and `CAUSE` after a command. -/
def Obligations.StatusNeverAffectsAResult : Prop :=
  ∀ (s : State) (st : StatusWord) (t : Transaction) (rest : List HostMove), s.rst = false → s.host = .command t :: rest →
    ∃ u u', step s = next u ∧ step { s with status := st } = next u' ∧
      u.word = u'.word ∧ u.r = u'.r ∧ causeOf u.status = causeOf u'.status

/-- R207: after a rejected command the next one is performed as if the rejected one had not been issued, but for `STICKY`. -/
def Obligations.CommandAfterARejectionIsPerformed : Prop :=
  ∀ (s : State) (t t' : Transaction) (rest : List HostMove), s.rst = false →
    s.host = .command t :: .command t' :: rest → ¬ Accepted t.cmd →
    ∃ u, core.run 2 s = next u ∧ stickyOf u.status = true ∧
      u.word = (pseudocodeStep s.registers t'.cmd t'.a t'.b).word ∧
      u.r = (pseudocodeStep s.registers t'.cmd t'.a t'.b).r ∧
      (Accepted t'.cmd → causeOf u.status = 0#4) ∧ (∀ e, Reports t'.cmd e → causeOf u.status = e.code)

/-! ## 10_state.md, 70_reset_and_hazards.md: reset, ports, and who writes what -/

/-- R33: reset sets every piece of state: the state after reset, and what asserting `rst` leaves of any state. -/
def Obligations.ResetSetsEveryRegister : Prop :=
  (State.reset.word = 0x0000000000000000#64 ∧ State.reset.r = 0x0000000000000000#64 ∧ State.reset.status = 0x0000#16 ∧
    causeOf State.reset.status = 0#4 ∧ stickyOf State.reset.status = false ∧ State.reset.ports.err = false) ∧
  (∀ (s : State) (inFlight : Option Transaction) (rest : List HostMove), s.host = .assertRst inFlight :: rest →
    ∃ u, step s = next u ∧ u.registers = State.reset.registers)

/-- R240: the line `rst`, in every state and whatever the host does: asserted, held, released, at power-on; a command in
flight or issued under it has no effect; nothing else clears `STICKY`. -/
def Obligations.ResetLineHoldsTheResetState : Prop :=
  (∀ (s : State) (inFlight : Option Transaction) (rest : List HostMove), s.host = .assertRst inFlight :: rest →
    ∃ u, step s = next u ∧ u.registers = ⟨0#64, 0#64, 0#16⟩ ∧ u.rst = true ∧ u.ports.err = false) ∧
  (∀ s : State, s.rst = true → (∀ rest, s.host ≠ .releaseRst :: rest) →
    ∃ u, step s = next u ∧ u.registers = ⟨0#64, 0#64, 0#16⟩ ∧ u.rst = true) ∧
  (∀ (s : State) (t : Transaction) (rest : List HostMove), Legal s → s.rst = true → s.host = .command t :: rest →
    ∃ u, step s = next u ∧ u.registers = s.registers) ∧
  (∀ (s : State) (rest : List HostMove), s.rst = true → s.host = .releaseRst :: rest →
    ∃ u, step s = next u ∧ u.registers = ⟨0#64, 0#64, 0#16⟩ ∧ u.rst = false) ∧
  (∀ (s : State) (rest : List HostMove), s.host = .powerOn :: rest →
    ∃ u, step s = next u ∧ u.registers = ⟨0#64, 0#64, 0#16⟩) ∧
  (∀ s u : State, step s = next u → stickyOf s.status = true → stickyOf u.status = false →
    s.rst = true ∨ ∃ m rest, s.host = m :: rest ∧ m.resets = true)

/-- The state right after reset is legal. -/
def Obligations.ResetStateIsLegal : Prop := Legal State.reset

/-- Every step keeps a state legal: reserved bits of `STATUS` 0, `CAUSE` at most 7, `STICKY` set while a cause is shown, and
the registers at their reset values while `rst` is asserted (R26 to R28, R240). -/
def Obligations.EveryStepKeepsAStateLegal : Prop :=
  ∀ s u : State, Legal s → step s = next u → Legal u

/-- R215: with no move of the host the unit holds its state, however long. -/
def Obligations.IdleUnitHoldsItsState : Prop :=
  ∀ (k : Nat) (s : State), s.rst = false → s.host = [] → core.run k s = next s

/-- R34: what the host observes, and that it is stable until the next command or reset; reading has no side effect. -/
def Obligations.PortsShowTheRegistersAndAreStable : Prop :=
  (∀ s : State, s.ports.word = s.word ∧ s.ports.result = s.r ∧ s.ports.status = s.status ∧
    s.ports.err = decide (causeOf s.status ≠ 0#4)) ∧
  (∀ s : State, s.rst = false →
    (s.host = [] ∨ (∃ rest, s.host = .readPorts :: rest) ∨ (∃ rest, s.host = .releaseRst :: rest)) →
    ∃ u, step s = next u ∧ u.ports = s.ports) ∧
  (∀ (s : State) (rest : List HostMove), s.rst = false → s.host = .readPorts :: rest →
    step s = next { s with host := rest })

/-- Who writes `WORD` (R22): an accepted `SETBF`, or reset to zero; no other step of the machine changes it. -/
def Obligations.OnlySetbfAndResetWriteWord : Prop :=
  ∀ s u : State, step s = next u → u.word ≠ s.word →
    (∃ t rest pos len, s.host = .command t :: rest ∧ s.rst = false ∧ decode t.cmd = .wellFormed (.setbf pos len) ∧
      ValidField pos len ∧ u.word = insert s.word t.b pos len) ∨
    (u.word = 0#64 ∧ (s.rst = true ∨ ∃ m rest, s.host = m :: rest ∧ m.resets = true))

/-- Who writes `R` (R23): an accepted `BITMASK`, `GETBF` or `NTHBYTE`, or reset to zero. -/
def Obligations.OnlyReadersAndResetWriteResult : Prop :=
  ∀ s u : State, step s = next u → u.r ≠ s.r →
    (∃ t rest i, s.host = .command t :: rest ∧ s.rst = false ∧ decode t.cmd = .wellFormed i ∧ Accepted t.cmd ∧
      (∀ pos len, i ≠ .setbf pos len)) ∨
    (u.r = 0#64 ∧ (s.rst = true ∨ ∃ m rest, s.host = m :: rest ∧ m.resets = true))
end

