-- ==== Sys2Proof/Laws/Assembler.lean ====
section
/-! SUPPORT. How the assembler reads runs of word characters, marks and numerals (30_encoding.md R69). -/

namespace Sys2Proof.Machine

open Sys2Proof Sys2Proof.Machine.Assembler Sys2Proof.Machine.Disassembler

/-- Every character of `cs` belongs to a name or numeral, and none starts a comment. -/
def isRun (cs : List Char) : Bool := cs.all (fun c => isWordChar c && c != ';')

theorem tokens_run {cs : List Char} (h : isRun cs = true) (rest acc : List Char) :
    tokens (cs ++ rest) acc = tokens rest (cs.reverse ++ acc) := by
  induction cs generalizing acc with
  | nil => rfl
  | cons c cs ih =>
    simp only [isRun, List.all_cons, Bool.and_eq_true, bne_iff_ne] at h
    rw [List.cons_append, tokens, if_neg h.1.2, if_pos h.1.1, ih h.2]
    simp

theorem closeWord_reverse {cs : List Char} {t : Token} (ne : cs ≠ []) (ht : wordToken cs = some t) (ts : List Token) :
    closeWord cs.reverse ts = some (t :: ts) := by
  unfold closeWord
  split
  · rename_i h; exact absurd (by simpa using h) ne
  · rw [List.reverse_reverse, ht]; rfl

/-- A run at the end of the line is its one token. -/
theorem tokens_lastRun {cs : List Char} {t : Token} (h : isRun cs = true) (ne : cs ≠ []) (ht : wordToken cs = some t) :
    tokens cs [] = some [t] := by
  have hr := tokens_run h [] []
  rw [List.append_nil, List.append_nil] at hr
  rw [hr, tokens, closeWord_reverse ne ht]

/-- A mark or white space before the rest of a line. -/
theorem tokens_mark {c : Char} {marks ts : List Token} {cs : List Char} (hc : c ≠ ';') (hw : isWordChar c = false)
    (hm : markTokens c = some marks) (hs : tokens cs [] = some ts) : tokens (c :: cs) [] = some (marks ++ ts) := by
  rw [tokens, if_neg hc, if_neg (by simp [hw]), hm, hs]; rfl

/-- A run, then a mark or white space, then the rest of a line. -/
theorem tokens_runMark {run : List Char} {t : Token} (h : isRun run = true) (ne : run ≠ []) (ht : wordToken run = some t)
    {c : Char} {marks ts : List Token} {cs : List Char} (hc : c ≠ ';') (hw : isWordChar c = false)
    (hm : markTokens c = some marks) (hs : tokens cs [] = some ts) :
    tokens (run ++ c :: cs) [] = some (t :: (marks ++ ts)) := by
  rw [tokens_run h, List.append_nil, tokens, if_neg hc, if_neg (by simp [hw]), hm, hs]
  exact closeWord_reverse ne ht _

theorem digit_spec : ∀ d < 16, hexDigit (digit d) = some d ∧ isWordChar (digit d) = true ∧ digit d ≠ ';' ∧ digit d ≠ '_' := by
  decide +kernel

theorem isRun_hexDigits (n k : Nat) : isRun (hexDigits n k) = true := by
  induction k with
  | zero => rfl
  | succ k ih =>
    obtain ⟨-, h1, h2, -⟩ := digit_spec (n / 16 ^ k % 16) (by omega)
    rw [isRun] at ih
    rw [hexDigits, isRun, List.all_cons, ih, h1]
    simpa using h2

/-- Reading back the low `k` hexadecimal digits of `n`. -/
theorem numeral_hexDigits (n : Nat) : ∀ k a : Nat,
    numeral 16 hexDigit (hexDigits n k) (some a) = some (a * 16 ^ k + n % 16 ^ k)
  | 0, a => by simp [hexDigits, numeral, Nat.mod_one]
  | k + 1, a => by
    obtain ⟨h, -, -, h'⟩ := digit_spec (n / 16 ^ k % 16) (by omega)
    have e : n % 16 ^ (k + 1) = n / 16 ^ k % 16 * 16 ^ k + n % 16 ^ k := by
      rw [Nat.pow_succ, Nat.mod_mul]; ring
    rw [hexDigits, numeral, if_neg h', h]
    simp only [Option.getD_some]
    rw [numeral_hexDigits n k, e]
    congr 1; ring

/-- An immediate of at most three decimal digits is a run that reads back as its value. -/
theorem immediate_spec : ∀ n < 1000,
    isRun (immediate n) = true ∧ immediate n ≠ [] ∧ wordToken (immediate n) = some (.imm n) := by
  decide +kernel

/-- Eight hexadecimal digits after `0x` are a run that reads back as the command word. -/
theorem wordNumeral_spec (w : Cmd) :
    isRun ('0' :: 'x' :: hexDigits w.toNat 8) = true ∧
    wordToken ('0' :: 'x' :: hexDigits w.toNat 8) = some (.hex w.toNat) := by
  have hr := isRun_hexDigits w.toNat 8
  have first : numeral 16 hexDigit (hexDigits w.toNat 8) none = numeral 16 hexDigit (hexDigits w.toNat 8) (some 0) := by
    obtain ⟨h, -, -, h'⟩ := digit_spec (w.toNat / 16 ^ 7 % 16) (by omega)
    rw [hexDigits, numeral, numeral, if_neg h', if_neg h', h]; rfl
  constructor
  · rw [isRun] at hr
    rw [isRun, List.all_cons, List.all_cons, hr]; decide
  · show (numeral 16 hexDigit (hexDigits w.toNat 8) none).map Token.hex = _
    have := w.isLt
    rw [first, numeral_hexDigits]
    simp; omega

end Sys2Proof.Machine
end

