-- ==== Sys2Proof/Laws/Datapath.lean ====
section
/-! SUPPORT. The datapath bit by bit (LSB-0), one lemma per shared function. -/

namespace Sys2Proof.Machine

open Sys2Proof

theorem getLsbD_bitmask {n : Nat} (hn : n ≤ 64) (i : Nat) : (bitmask n).getLsbD i = decide (i < n) := by
  unfold bitmask
  rw [BitVec.getLsbD_ofNat, Nat.testBit_two_pow_sub_one]
  by_cases h : i < n
  · simp [h]; omega
  · simp [h]

theorem toNat_bitmask {n : Nat} (hn : n ≤ 64) : (bitmask n).toNat = 2 ^ n - 1 := by
  have h1 : 2 ^ n ≤ 2 ^ 64 := Nat.pow_le_pow_right (by decide) hn
  have h2 : 0 < 2 ^ n := Nat.two_pow_pos n
  simp only [bitmask, BitVec.toNat_ofNat]
  exact Nat.mod_eq_of_lt (by omega)

theorem getLsbD_extract {s n : Nat} (h : ValidField s n) (d : Word) (i : Nat) :
    (extract d s n).getLsbD i = (decide (i < n) && d.getLsbD (64 - s - n + i)) := by
  have hn : n ≤ 64 := by have := h.2; omega
  simp [extract, fieldShift, getLsbD_bitmask hn, Bool.and_comm]

theorem getLsbD_fieldMask {s n : Nat} (h : ValidField s n) (i : Nat) :
    (fieldMask s n).getLsbD i = (decide (fieldShift s n ≤ i) && decide (i < fieldShift s n + n)) := by
  obtain ⟨h1, h2⟩ := h
  have hn : n ≤ 64 := by omega
  simp only [fieldMask, BitVec.getLsbD_shiftLeft, getLsbD_bitmask hn, fieldShift]
  by_cases ha : 64 - s - n ≤ i <;> by_cases hb : i < 64 - s - n + n <;> simp [ha, hb] <;> omega

theorem getLsbD_insert {s n : Nat} (h : ValidField s n) (d v : Word) {i : Nat} (hi : i < 64) :
    (insert d v s n).getLsbD i =
      if fieldShift s n ≤ i ∧ i < fieldShift s n + n then v.getLsbD (i - fieldShift s n) else d.getLsbD i := by
  have hn : n ≤ 64 := by have := h.2; omega
  simp only [insert, BitVec.getLsbD_or, BitVec.getLsbD_and, BitVec.getLsbD_not, BitVec.getLsbD_shiftLeft,
    getLsbD_fieldMask h, getLsbD_bitmask hn]
  by_cases ha : fieldShift s n ≤ i <;> by_cases hb : i < fieldShift s n + n <;> simp [ha, hb, hi]
  · have : ¬ i < fieldShift s n := by omega
    simp [this]; omega
  · omega

theorem getLsbD_byteLane (v : Word) (m j i : Nat) (hi : i < 64) :
    (byteLane v m j).getLsbD i =
      (decide (8 * (m - 1 - j) ≤ i) && decide (i < 8 * (m - 1 - j) + 8) && v.getLsbD (8 * j + (i - 8 * (m - 1 - j)))) := by
  have h255 : (0xFF#64) = bitmask 8 := by decide
  simp only [byteLane, h255, BitVec.getLsbD_shiftLeft, BitVec.getLsbD_and, BitVec.getLsbD_ushiftRight,
    getLsbD_bitmask (show 8 ≤ 64 by decide)]
  by_cases ha : 8 * (m - 1 - j) ≤ i <;> by_cases hb : i < 8 * (m - 1 - j) + 8 <;> simp [ha, hb, hi]
  · have : i - 8 * (m - 1 - j) < 8 := by omega
    simp [this]; omega
  · omega

/-- Only the lane that covers bit `i` can set it. -/
theorem getLsbD_orLanes (v : Word) (m : Nat) {i : Nat} (hi : i < 64) :
    ∀ k, k ≤ m → (orLanes v m k).getLsbD i =
      (decide (i < 8 * m) && decide (8 * (m - k) ≤ i) && v.getLsbD (8 * (m - 1 - i / 8) + i % 8))
  | 0, _ => by
    have : ¬ (i < 8 * m ∧ 8 * m ≤ i) := by omega
    simp only [orLanes, BitVec.getLsbD_zero, Nat.sub_zero]
    by_cases h : i < 8 * m <;> simp [h]
  | k + 1, hk => by
    rw [orLanes, BitVec.getLsbD_or, getLsbD_orLanes v m hi k (by omega), getLsbD_byteLane v m k i hi]
    by_cases h1 : i < 8 * m <;> by_cases h2 : 8 * (m - k) ≤ i <;> by_cases h3 : 8 * (m - (k + 1)) ≤ i
    · have a : ¬ i < 8 * (m - 1 - k) + 8 := by omega
      simp [h1, h2, h3, a]
    · omega
    · have a : 8 * (m - 1 - k) ≤ i := by omega
      have b : i < 8 * (m - 1 - k) + 8 := by omega
      have c : m - 1 - i / 8 = k := by omega
      have e : i - 8 * (m - 1 - k) = i % 8 := by omega
      simp [h1, h2, h3, a, b, c, e]
    · have a : ¬ 8 * (m - 1 - k) ≤ i := by omega
      simp [h1, h2, h3, a]
    all_goals
      have a : ¬ i < 8 * (m - 1 - k) + 8 := by omega
      simp [h1, a]

theorem getLsbD_byteswap (v : Word) (n : Nat) {i : Nat} (hi : i < 64) :
    (byteswap v n).getLsbD i = (decide (i < 8 * (n / 8)) && v.getLsbD (8 * (n / 8 - 1 - i / 8) + i % 8)) := by
  simp [byteswap, getLsbD_orLanes v (n / 8) hi (n / 8) (Nat.le_refl _)]

theorem getLsbD_byteOf (d : Word) (k i : Nat) :
    (byteOf d k).getLsbD i = (decide (i < 8) && d.getLsbD (56 - 8 * k + i)) := by
  have h255 : (0xFF#64) = bitmask 8 := by decide
  simp only [byteOf, h255, BitVec.getLsbD_setWidth, BitVec.getLsbD_and, BitVec.getLsbD_ushiftRight,
    getLsbD_bitmask (show 8 ≤ 64 by decide)]
  by_cases h : i < 8 <;> simp [h]

end Sys2Proof.Machine
end

