-- ==== Sys2Proof/Laws/Encoding.lean ====
section
/-! SUPPORT. The fields of a command word: slices bit by bit, the decoder's fields as slices, what matching a row of R65 says of the fields (R64), and the encoding formula as a sum (R66). -/

namespace Sys2Proof.Machine

open Sys2Proof

/-! ### Slices -/

theorem testBit_slice (w : Cmd) (hi lo i : Nat) :
    (slice w hi lo).testBit i = (decide (i < hi + 1 - lo) && w.getLsbD (lo + i)) := by
  simp [slice, Nat.testBit_mod_two_pow, Nat.testBit_div_two_pow, BitVec.getLsbD, Nat.add_comm]

theorem slice_lt (w : Cmd) (hi lo : Nat) : slice w hi lo < 2 ^ (hi + 1 - lo) := Nat.mod_lt _ (Nat.two_pow_pos _)

theorem slice_eq_iff (w : Cmd) (hi lo : Nat) {k : Nat} (hk : k < 2 ^ (hi + 1 - lo)) :
    slice w hi lo = k ↔ ∀ i < hi + 1 - lo, w.getLsbD (lo + i) = k.testBit i := by
  constructor
  · rintro rfl i h
    simp [testBit_slice, h]
  · intro h
    apply Nat.eq_of_testBit_eq
    intro i
    rw [testBit_slice]
    by_cases hi' : i < hi + 1 - lo
    · simp [hi', h i hi']
    · have : k < 2 ^ i := lt_of_lt_of_le hk (Nat.pow_le_pow_right (by decide) (by omega))
      simp [hi', Nat.testBit_lt_two_pow this]

/-- A command word is the sum of its eight fields (R61). -/
theorem toNat_eq_fields (w : Cmd) : w.toNat = slice w 3 0 + slice w 4 4 * 2 ^ 4 + slice w 5 5 * 2 ^ 5 + slice w 7 6 * 2 ^ 6 +
    slice w 14 8 * 2 ^ 8 + slice w 15 15 * 2 ^ 15 + slice w 22 16 * 2 ^ 16 + slice w 31 23 * 2 ^ 23 := by
  have := w.isLt
  simp [slice]; omega

/-! ### The decoder's fields -/

theorem opField_eq_slice (w : Cmd) : (opField w).toNat = slice w 3 0 := by
  simp [opField, slice, BitVec.extractLsb'_toNat]

theorem posField_eq_slice (w : Cmd) : posField w = slice w 14 8 := by
  simp [posField, slice, BitVec.extractLsb'_toNat, Nat.shiftRight_eq_div_pow]

theorem lenField_eq_slice (w : Cmd) : lenField w = slice w 22 16 := by
  simp [lenField, slice, BitVec.extractLsb'_toNat, Nat.shiftRight_eq_div_pow]

theorem swField_eq_slice (w : Cmd) : swField w = decide (slice w 4 4 = 1) := by
  have := slice_eq_iff w 4 4 (k := 1) (by decide)
  simp at this
  simp [swField, this]

theorem srcField_eq_slice (w : Cmd) : srcField w = decide (slice w 5 5 = 1) := by
  have := slice_eq_iff w 5 5 (k := 1) (by decide)
  simp at this
  simp [srcField, this]

/-! ### What matching a row says of the fields -/

theorem and_eq_iff_bits (w m p : Cmd) : w &&& m = p ↔ ∀ i < 32, (w.getLsbD i && m.getLsbD i) = p.getLsbD i := by
  constructor
  · rintro rfl i _; simp
  · intro h
    apply BitVec.eq_of_getLsbD_eq
    intro i hi
    rw [BitVec.getLsbD_and]; exact h i hi

theorem matches_bitmask (w : Cmd) : w &&& 0xFF80FFFF#32 = 0x00000001#32 ↔ slice w 3 0 = 1 ∧ slice w 4 4 = 0 ∧
    slice w 5 5 = 0 ∧ slice w 7 6 = 0 ∧ slice w 14 8 = 0 ∧ slice w 15 15 = 0 ∧ slice w 31 23 = 0 := by
  rw [and_eq_iff_bits, slice_eq_iff _ _ _ (by decide), slice_eq_iff _ _ _ (by decide), slice_eq_iff _ _ _ (by decide),
    slice_eq_iff _ _ _ (by decide), slice_eq_iff _ _ _ (by decide), slice_eq_iff _ _ _ (by decide),
    slice_eq_iff _ _ _ (by decide)]
  simp [Nat.forall_lt_succ_right, Nat.le_one_iff_eq_zero_or_eq_one, or_imp, forall_and, and_assoc, Nat.testBit]

theorem matches_getbf (w : Cmd) : w &&& 0xFF8080CF#32 = 0x00000002#32 ↔ slice w 3 0 = 2 ∧ slice w 7 6 = 0 ∧
    slice w 15 15 = 0 ∧ slice w 31 23 = 0 := by
  rw [and_eq_iff_bits, slice_eq_iff _ _ _ (by decide), slice_eq_iff _ _ _ (by decide), slice_eq_iff _ _ _ (by decide),
    slice_eq_iff _ _ _ (by decide)]
  simp [Nat.forall_lt_succ_right, Nat.le_one_iff_eq_zero_or_eq_one, or_imp, forall_and, and_assoc, Nat.testBit]

theorem matches_setbf (w : Cmd) : w &&& 0xFF8080FF#32 = 0x00000003#32 ↔ slice w 3 0 = 3 ∧ slice w 4 4 = 0 ∧
    slice w 5 5 = 0 ∧ slice w 7 6 = 0 ∧ slice w 15 15 = 0 ∧ slice w 31 23 = 0 := by
  rw [and_eq_iff_bits, slice_eq_iff _ _ _ (by decide), slice_eq_iff _ _ _ (by decide), slice_eq_iff _ _ _ (by decide),
    slice_eq_iff _ _ _ (by decide), slice_eq_iff _ _ _ (by decide), slice_eq_iff _ _ _ (by decide)]
  simp [Nat.forall_lt_succ_right, Nat.le_one_iff_eq_zero_or_eq_one, or_imp, forall_and, and_assoc, Nat.testBit]

theorem matches_nthbyte (w : Cmd) : w &&& 0xFFFF80DF#32 = 0x00000004#32 ↔ slice w 3 0 = 4 ∧ slice w 4 4 = 0 ∧
    slice w 7 6 = 0 ∧ slice w 15 15 = 0 ∧ slice w 22 16 = 0 ∧ slice w 31 23 = 0 := by
  rw [and_eq_iff_bits, slice_eq_iff _ _ _ (by decide), slice_eq_iff _ _ _ (by decide), slice_eq_iff _ _ _ (by decide),
    slice_eq_iff _ _ _ (by decide), slice_eq_iff _ _ _ (by decide), slice_eq_iff _ _ _ (by decide)]
  simp [Nat.forall_lt_succ_right, Nat.le_one_iff_eq_zero_or_eq_one, or_imp, forall_and, and_assoc, Nat.testBit]

/-! ### The encoding formula as a sum -/

theorem or_shiftLeft_eq_add {x y k : Nat} (h : x < 2 ^ k) : x ||| (y <<< k) = y * 2 ^ k + x := by
  rw [Nat.or_comm, ← Nat.shiftLeft_add_eq_or_of_lt h, Nat.shiftLeft_eq]

theorem toNat_shiftedField {x k : Nat} (hx : x < 128) (hk : k ≤ 16) : (x % 2 ^ 32) <<< k % 2 ^ 32 = x <<< k := by
  have h1 : 2 ^ k ≤ 2 ^ 16 := Nat.pow_le_pow_right (by decide) hk
  have h2 : x * 2 ^ k ≤ 128 * 2 ^ 16 := Nat.mul_le_mul (by omega) h1
  rw [Nat.mod_eq_of_lt (show x < 2 ^ 32 by omega), Nat.shiftLeft_eq]
  exact Nat.mod_eq_of_lt (by omega)

/-- "The fields of each expression do not overlap, so `+` equals bitwise OR" (R72). -/
theorem toNat_encodeFields {op sw src pos len : Nat} (ho : op < 16) (hw : sw < 2) (hs : src < 2) (hp : pos < 128)
    (hl : len < 128) :
    (encodeFields (BitVec.ofNat 32 op) (BitVec.ofNat 32 sw) (BitVec.ofNat 32 src) pos len).toNat =
      op + sw * 2 ^ 4 + src * 2 ^ 5 + pos * 2 ^ 8 + len * 2 ^ 16 := by
  simp only [encodeFields, BitVec.toNat_or, BitVec.toNat_shiftLeft, BitVec.toNat_ofNat]
  rw [toNat_shiftedField (by omega) (by omega), toNat_shiftedField (by omega) (by omega),
    toNat_shiftedField hp (by omega), toNat_shiftedField hl (by omega), Nat.mod_eq_of_lt (show op < 2 ^ 32 by omega),
    or_shiftLeft_eq_add (show op < 2 ^ 4 by omega), or_shiftLeft_eq_add (show _ < 2 ^ 5 by omega),
    or_shiftLeft_eq_add (show _ < 2 ^ 8 by omega), or_shiftLeft_eq_add (show _ < 2 ^ 16 by omega)]
  omega

theorem slices_encodeFields {op sw src pos len : Nat} (ho : op < 16) (hw : sw < 2) (hs : src < 2) (hp : pos < 128)
    (hl : len < 128) {w : Cmd}
    (h : w = encodeFields (BitVec.ofNat 32 op) (BitVec.ofNat 32 sw) (BitVec.ofNat 32 src) pos len) :
    slice w 3 0 = op ∧ slice w 4 4 = sw ∧ slice w 5 5 = src ∧ slice w 7 6 = 0 ∧ slice w 14 8 = pos ∧ slice w 15 15 = 0 ∧
      slice w 22 16 = len ∧ slice w 31 23 = 0 := by
  have := toNat_encodeFields ho hw hs hp hl
  simp [slice, h, this]; omega

end Sys2Proof.Machine
end

