-- ==== Sys2Proof/Laws/State.lean ====
section
/-! SUPPORT. One lemma per field per update of State: what each update writes and what it keeps. -/

namespace Sys2Proof.Machine

open Sys2Proof

/-! ### `State.writeR` (R14, R23) -/

@[simp] theorem State.word_writeR (s : State) (v : Word) : (s.writeR v).word = s.word := rfl
@[simp] theorem State.r_writeR (s : State) (v : Word) : (s.writeR v).r = v := rfl
@[simp] theorem State.status_writeR (s : State) (v : Word) : (s.writeR v).status = s.status := rfl
@[simp] theorem State.rst_writeR (s : State) (v : Word) : (s.writeR v).rst = s.rst := rfl
@[simp] theorem State.a_writeR (s : State) (v : Word) : (s.writeR v).a = s.a := rfl
@[simp] theorem State.b_writeR (s : State) (v : Word) : (s.writeR v).b = s.b := rfl
@[simp] theorem State.host_writeR (s : State) (v : Word) : (s.writeR v).host = s.host := rfl

/-! ### `State.writeWord` (R14, R22) -/

@[simp] theorem State.word_writeWord (s : State) (v : Word) : (s.writeWord v).word = v := rfl
@[simp] theorem State.r_writeWord (s : State) (v : Word) : (s.writeWord v).r = s.r := rfl
@[simp] theorem State.status_writeWord (s : State) (v : Word) : (s.writeWord v).status = s.status := rfl
@[simp] theorem State.rst_writeWord (s : State) (v : Word) : (s.writeWord v).rst = s.rst := rfl
@[simp] theorem State.a_writeWord (s : State) (v : Word) : (s.writeWord v).a = s.a := rfl
@[simp] theorem State.b_writeWord (s : State) (v : Word) : (s.writeWord v).b = s.b := rfl
@[simp] theorem State.host_writeWord (s : State) (v : Word) : (s.writeWord v).host = s.host := rfl

/-! ### `State.accept` (R203) -/

@[simp] theorem State.word_accept (s : State) : s.accept.word = s.word := rfl
@[simp] theorem State.r_accept (s : State) : s.accept.r = s.r := rfl
@[simp] theorem State.status_accept (s : State) : s.accept.status = acceptedStatus s.status := rfl
@[simp] theorem State.rst_accept (s : State) : s.accept.rst = s.rst := rfl
@[simp] theorem State.a_accept (s : State) : s.accept.a = s.a := rfl
@[simp] theorem State.b_accept (s : State) : s.accept.b = s.b := rfl
@[simp] theorem State.host_accept (s : State) : s.accept.host = s.host := rfl

/-! ### `State.reject` (R202) -/

@[simp] theorem State.word_reject (s : State) (e : BfuError) : (s.reject e).word = s.word := rfl
@[simp] theorem State.r_reject (s : State) (e : BfuError) : (s.reject e).r = s.r := rfl
@[simp] theorem State.status_reject (s : State) (e : BfuError) : (s.reject e).status = rejectedStatus e := rfl
@[simp] theorem State.rst_reject (s : State) (e : BfuError) : (s.reject e).rst = s.rst := rfl
@[simp] theorem State.a_reject (s : State) (e : BfuError) : (s.reject e).a = s.a := rfl
@[simp] theorem State.b_reject (s : State) (e : BfuError) : (s.reject e).b = s.b := rfl
@[simp] theorem State.host_reject (s : State) (e : BfuError) : (s.reject e).host = s.host := rfl

/-! ### `State.clear` (R33) -/

@[simp] theorem State.word_clear (s : State) : s.clear.word = 0#64 := rfl
@[simp] theorem State.r_clear (s : State) : s.clear.r = 0#64 := rfl
@[simp] theorem State.status_clear (s : State) : s.clear.status = 0#16 := rfl
@[simp] theorem State.rst_clear (s : State) : s.clear.rst = s.rst := rfl
@[simp] theorem State.a_clear (s : State) : s.clear.a = s.a := rfl
@[simp] theorem State.b_clear (s : State) : s.clear.b = s.b := rfl
@[simp] theorem State.host_clear (s : State) : s.clear.host = s.host := rfl

/-! ### `State.drive` (R8) -/

@[simp] theorem State.word_drive (s : State) (t : Transaction) : (s.drive t).word = s.word := rfl
@[simp] theorem State.r_drive (s : State) (t : Transaction) : (s.drive t).r = s.r := rfl
@[simp] theorem State.status_drive (s : State) (t : Transaction) : (s.drive t).status = s.status := rfl
@[simp] theorem State.rst_drive (s : State) (t : Transaction) : (s.drive t).rst = s.rst := rfl
@[simp] theorem State.a_drive (s : State) (t : Transaction) : (s.drive t).a = t.a := rfl
@[simp] theorem State.b_drive (s : State) (t : Transaction) : (s.drive t).b = t.b := rfl
@[simp] theorem State.host_drive (s : State) (t : Transaction) : (s.drive t).host = s.host := rfl

/-! ### `State.advance` (R46) -/

@[simp] theorem State.word_advance (s : State) (rest : List HostMove) : (s.advance rest).word = s.word := rfl
@[simp] theorem State.r_advance (s : State) (rest : List HostMove) : (s.advance rest).r = s.r := rfl
@[simp] theorem State.status_advance (s : State) (rest : List HostMove) : (s.advance rest).status = s.status := rfl
@[simp] theorem State.rst_advance (s : State) (rest : List HostMove) : (s.advance rest).rst = s.rst := rfl
@[simp] theorem State.a_advance (s : State) (rest : List HostMove) : (s.advance rest).a = s.a := rfl
@[simp] theorem State.b_advance (s : State) (rest : List HostMove) : (s.advance rest).b = s.b := rfl
@[simp] theorem State.host_advance (s : State) (rest : List HostMove) : (s.advance rest).host = rest := rfl

end Sys2Proof.Machine
end

