-- ==== Sys2Proof/Laws/Status.lean ====
section
/-! SUPPORT. What the operations on `STATUS` do: fields of a made value, accepting, rejecting. -/

namespace Sys2Proof.Machine

open Sys2Proof

@[simp] theorem causeOf_makeStatus (c : BitVec 4) (k : Bool) : causeOf (makeStatus c k) = c := by
  revert c k; decide

@[simp] theorem stickyOf_makeStatus (c : BitVec 4) (k : Bool) : stickyOf (makeStatus c k) = k := by
  revert c k; decide

theorem makeStatus_reserved (c : BitVec 4) (k : Bool) : makeStatus c k &&& 0xFEF0#16 = 0#16 := by
  revert c k; decide

theorem makeStatus_inj {c c' : BitVec 4} {k k' : Bool} (h : makeStatus c k = makeStatus c' k') : c = c' ∧ k = k' :=
  ⟨by simpa using congrArg causeOf h, by simpa using congrArg stickyOf h⟩

@[simp] theorem causeOf_acceptedStatus (st : StatusWord) : causeOf (acceptedStatus st) = 0#4 := by
  simp [acceptedStatus]

@[simp] theorem stickyOf_acceptedStatus (st : StatusWord) : stickyOf (acceptedStatus st) = stickyOf st := by
  simp [acceptedStatus]

@[simp] theorem causeOf_rejectedStatus (e : BfuError) : causeOf (rejectedStatus e) = e.code := by
  simp [rejectedStatus]

@[simp] theorem stickyOf_rejectedStatus (e : BfuError) : stickyOf (rejectedStatus e) = true := by
  simp [rejectedStatus]

theorem BfuError.code_inj {e e' : BfuError} (h : e.code = e'.code) : e = e' := by
  cases e <;> cases e' <;> first | rfl | (exact absurd h (by decide))

theorem BfuError.code_ne_zero (e : BfuError) : e.code ≠ 0#4 := by cases e <;> decide

theorem BfuError.code_le (e : BfuError) : e.code ≤ 7#4 := by cases e <;> decide

/-- Accepting keeps the `STICKY` bit and clears every other bit. -/
theorem acceptedStatus_eq_and (st : StatusWord) : acceptedStatus st = st &&& 0x0100#16 := by
  have h : (0x0100#16) = BitVec.twoPow 16 8 := by decide
  rw [h, BitVec.and_twoPow, acceptedStatus, makeStatus, stickyOf]
  cases st.getLsbD 8 <;> decide

theorem acceptedStatus_legal (st : StatusWord) : LegalStatus (acceptedStatus st) :=
  ⟨makeStatus_reserved _ _, by simp, by simp⟩

theorem rejectedStatus_legal (e : BfuError) : LegalStatus (rejectedStatus e) :=
  ⟨makeStatus_reserved _ _, by simpa using e.code_le, by simp⟩

end Sys2Proof.Machine
end

