-- ==== Sys2Proof/Laws/Exec.lean ====
section
/-! SUPPORT. What the end of a command, a meaning and a step can do, said once. -/

namespace Sys2Proof.Machine

open Sys2Proof

theorem raise_eq (e : BfuError) (s : State) : raise e s = .next (s.reject e) := rfl

@[simp] theorem finish_none (done s : State) : finish none done s = .next done.accept := rfl

@[simp] theorem finish_some (e : BfuError) (done s : State) : finish (some e) done s = .next (s.reject e) := rfl

/-! ### The range checks (R102, R114, R132, R142) -/

theorem bitmaskCheck_none {n : Nat} : bitmaskCheck n = none ↔ n ≤ 64 := by
  unfold bitmaskCheck; split <;> simp <;> omega

theorem setbfCheck_none {s n : Nat} : setbfCheck s n = none ↔ ValidField s n := by
  unfold setbfCheck; split
  · simp; omega
  · split <;> simp <;> omega

theorem getbfCheck_none {order : ByteOrder} {s n : Nat} :
    getbfCheck order s n = none ↔ ValidField s n ∧ (order = .byteSwapped → n % 8 = 0) := by
  unfold getbfCheck; split
  · simp; omega
  · split
    · simp; omega
    · cases order <;> simp <;> omega

theorem nthbyteCheck_none {k : Nat} : nthbyteCheck k = none ↔ k ≤ 7 := by
  unfold nthbyteCheck; split <;> simp <;> omega

/-! ### What a command can do -/

/-- The value a command writes to `R`, where it writes it. -/
def resultOf (s : State) : Instr → Word
  | .bitmask len => bitmask len
  | .getbf order src pos len => getBitField (s.source src) pos len order
  | .setbf _ _ => s.r
  | .nthbyte src n => (byteOf (s.source src) n).setWidth 64

/-- The value a command leaves in `WORD`. -/
def wordOf (s : State) : Instr → Word
  | .setbf pos len => insert s.word s.value pos len
  | .bitmask _ => s.word
  | .getbf _ _ _ _ => s.word
  | .nthbyte _ _ => s.word

/-- The range checks of a command. -/
def rangeCheck : Instr → Option BfuError
  | .bitmask len => bitmaskCheck len
  | .getbf order _ pos len => getbfCheck order pos len
  | .setbf pos len => setbfCheck pos len
  | .nthbyte _ n => nthbyteCheck n

/-- A meaning rejects with the error its checks find, or writes its one register and accepts. -/
theorem exec_eq (i : Instr) (s : State) :
    exec i s = match rangeCheck i with
      | some e => .next (s.reject e)
      | none => .next { s with word := wordOf s i, r := resultOf s i, status := acceptedStatus s.status } := by
  cases i with
  | bitmask len => simp only [exec, execBitmask, rangeCheck]; cases bitmaskCheck len <;> rfl
  | getbf order src pos len => simp only [exec, execGetbf, rangeCheck]; cases getbfCheck order pos len <;> rfl
  | setbf pos len => simp only [exec, execSetbf, rangeCheck]; cases setbfCheck pos len <;> rfl
  | nthbyte src n => simp only [exec, execNthbyte, rangeCheck]; cases nthbyteCheck n <;> rfl

theorem exec_of_check_none {i : Instr} (h : rangeCheck i = none) (s : State) :
    exec i s = .next { s with word := wordOf s i, r := resultOf s i, status := acceptedStatus s.status } := by
  rw [exec_eq, h]

theorem exec_of_check_some {i : Instr} {e : BfuError} (h : rangeCheck i = some e) (s : State) :
    exec i s = .next (s.reject e) := by
  rw [exec_eq, h]

/-! ### What a command word can do -/

/-- The error of a command word: of its decoding, or of the range checks (R67). -/
def wordCheck (w : Cmd) : Option BfuError :=
  match decode w with
  | .illegal => some .illegalOp
  | .reserved => some .reservedField
  | .wellFormed i => rangeCheck i

theorem runWord_illegal {w : Cmd} (h : decode w = .illegal) (s : State) :
    runWord w s = .next (s.reject .illegalOp) := by
  simp [runWord, h, raise_eq]

theorem runWord_reserved {w : Cmd} (h : decode w = .reserved) (s : State) :
    runWord w s = .next (s.reject .reservedField) := by
  simp [runWord, h, raise_eq]

theorem runWord_wellFormed {w : Cmd} {i : Instr} (h : decode w = .wellFormed i) (s : State) :
    runWord w s = exec i s := by
  simp [runWord, h]

/-- A command word is rejected with its error, or it is a well-formed command that writes its one register. -/
theorem runWord_cases (w : Cmd) (s : State) :
    (∃ e, wordCheck w = some e ∧ runWord w s = .next (s.reject e)) ∨
    (∃ i, decode w = .wellFormed i ∧ wordCheck w = none ∧ rangeCheck i = none ∧
      runWord w s = .next { s with word := wordOf s i, r := resultOf s i, status := acceptedStatus s.status }) := by
  rcases hd : decode w with _ | _ | i
  · exact .inl ⟨_, by simp [wordCheck, hd], runWord_illegal hd s⟩
  · exact .inl ⟨_, by simp [wordCheck, hd], runWord_reserved hd s⟩
  · rcases hc : rangeCheck i with _ | e
    · exact .inr ⟨i, rfl, by simp [wordCheck, hd, hc], hc, by rw [runWord_wellFormed hd, exec_of_check_none hc]⟩
    · exact .inl ⟨e, by simp [wordCheck, hd, hc], by rw [runWord_wellFormed hd, exec_of_check_some hc]⟩

/-! ### What a step can do -/

theorem step_idle {s : State} (h : s.host = []) : step s = .next s.underRst := by simp [step, h, idle]

theorem step_move {s : State} {m : HostMove} {rest : List HostMove} (h : s.host = m :: rest) :
    step s = hostMove m (s.advance rest) := by simp [step, h]

theorem step_command {s : State} {t : Transaction} {rest : List HostMove} (h : s.host = .command t :: rest)
    (hr : s.rst = false) : step s = runWord t.cmd ((s.advance rest).drive t) := by
  simp [step_move h, hostMove, issue, hr]

theorem step_command_underRst {s : State} {t : Transaction} {rest : List HostMove} (h : s.host = .command t :: rest)
    (hr : s.rst = true) : step s = .next ((s.advance rest).drive t).clear := by
  simp [step_move h, hostMove, issue, hr]

theorem underRst_asserted {s : State} (h : s.rst = true) : s.underRst = s.clear := by simp [State.underRst, h]

theorem underRst_released {s : State} (h : s.rst = false) : s.underRst = s := by simp [State.underRst, h]

/-- A run of `k + 1` steps is one step, then a run of `k` from the state it leaves. -/
theorem run_succ (k : Nat) {s u : State} (h : step s = .next u) : core.run (k + 1) s = core.run k u := by
  have hu : core.step s = .next u := h
  simp only [Host.Core.run]
  rw [hu]

/-! ### A command the host presents next -/

theorem presentNext_host (s : State) (w : Cmd) :
    (s.presentNext w).host = .command { cmd := w, a := s.a, b := s.b } :: s.host := rfl

/-- The step after `presentNext` runs the word on the buses as they stand. -/
theorem step_presentNext (s : State) (w : Cmd) :
    step (s.presentNext w) = runWord w { s with rst := false } := by
  rw [step_command (presentNext_host s w) rfl]; rfl

end Sys2Proof.Machine
end

