-- ==== Sys2Proof/Laws/PerInstr.lean ====
section
/-! SUPPORT. Laws stated per instruction. `EncodedFields`: each field of an instruction's word holds its operand, and a reserved or unused field is zero (R64, R66). -/

namespace Sys2Proof.Laws

open Sys2Proof Sys2Proof.Machine

/-- The number in `SW`. -/
def swNumber : ByteOrder → Nat
  | .normal => 0
  | .byteSwapped => 1

/-- The number in `SRC`. -/
def srcNumber : Source → Nat
  | .busA => 0
  | .word => 1

theorem swNumber_lt (order : ByteOrder) : swNumber order < 2 := by cases order <;> decide

theorem srcNumber_lt (src : Source) : srcNumber src < 2 := by cases src <;> decide

theorem swBit_eq (order : ByteOrder) : order.bit = BitVec.ofNat 32 (swNumber order) := by cases order <;> rfl

theorem srcBit_eq (src : Source) : src.bit = BitVec.ofNat 32 (srcNumber src) := by cases src <;> rfl

/-- `OP`, `SW`, `SRC`, `POS`, `LEN` of an instruction; a field it does not use is 0 (R64). -/
def fieldsOf : Instr → Nat × Nat × Nat × Nat × Nat
  | .bitmask len => (1, 0, 0, 0, len)
  | .getbf order src pos len => (2, swNumber order, srcNumber src, pos, len)
  | .setbf pos len => (3, 0, 0, pos, len)
  | .nthbyte src n => (4, 0, srcNumber src, n, 0)

/-- The fields of the instruction's word are its fields, and the reserved fields are zero. -/
def EncodedFields.Statement (i : Instr) : Prop :=
  i.wellFormed = true →
    (slice (encode i) 3 0, slice (encode i) 4 4, slice (encode i) 5 5, slice (encode i) 14 8, slice (encode i) 22 16) =
      fieldsOf i ∧
    slice (encode i) 7 6 = 0 ∧ slice (encode i) 15 15 = 0 ∧ slice (encode i) 31 23 = 0

theorem EncodedFields.bitmask (len : Nat) : EncodedFields.Statement (.bitmask len) := by
  intro h
  simp only [Instr.wellFormed, fitsField, decide_eq_true_eq] at h
  obtain ⟨h1, h2, h3, h4, h5, h6, h7, h8⟩ := slices_encodeFields (op := 1) (sw := 0) (src := 0) (pos := 0) (len := len)
    (by decide) (by decide) (by decide) (by decide) (by omega) (show encode (.bitmask len) = _ from rfl)
  exact ⟨by rw [h1, h2, h3, h5, h7]; rfl, h4, h6, h8⟩

theorem EncodedFields.getbf (order : ByteOrder) (src : Source) (pos len : Nat) :
    EncodedFields.Statement (.getbf order src pos len) := by
  intro h
  simp only [Instr.wellFormed, fitsField, Bool.and_eq_true, decide_eq_true_eq] at h
  obtain ⟨h1, h2, h3, h4, h5, h6, h7, h8⟩ := slices_encodeFields (op := 2) (by decide) (swNumber_lt order)
    (srcNumber_lt src) (show pos < 128 by omega) (show len < 128 by omega)
    (show encode (.getbf order src pos len) = _ by rw [encode, swBit_eq, srcBit_eq])
  exact ⟨by rw [h1, h2, h3, h5, h7]; rfl, h4, h6, h8⟩

theorem EncodedFields.setbf (pos len : Nat) : EncodedFields.Statement (.setbf pos len) := by
  intro h
  simp only [Instr.wellFormed, fitsField, Bool.and_eq_true, decide_eq_true_eq] at h
  obtain ⟨h1, h2, h3, h4, h5, h6, h7, h8⟩ := slices_encodeFields (op := 3) (sw := 0) (src := 0) (by decide) (by decide)
    (by decide) (show pos < 128 by omega) (show len < 128 by omega) (show encode (.setbf pos len) = _ from rfl)
  exact ⟨by rw [h1, h2, h3, h5, h7]; rfl, h4, h6, h8⟩

theorem EncodedFields.nthbyte (src : Source) (n : Nat) : EncodedFields.Statement (.nthbyte src n) := by
  intro h
  simp only [Instr.wellFormed, fitsField, decide_eq_true_eq] at h
  obtain ⟨h1, h2, h3, h4, h5, h6, h7, h8⟩ := slices_encodeFields (op := 4) (sw := 0) (len := 0) (by decide) (by decide)
    (srcNumber_lt src) (show n < 128 by omega) (by decide)
    (show encode (.nthbyte src n) = _ by rw [encode, srcBit_eq])
  exact ⟨by rw [h1, h2, h3, h5, h7]; rfl, h4, h6, h8⟩

end Sys2Proof.Laws
end

