-- ==== Sys2Proof/Tests/Slice0.lean ====
section
/-! SUPPORT. Tests of the model and witnesses of the statements' hypotheses. Expected values are the rows V<n> of 95_test_vectors.md, the tables of 30_encoding.md R66 and R72, and the examples of the rules. -/

namespace Sys2Proof.Tests

open Sys2Proof Sys2Proof.Machine

/-! ## WellFormed: an ill-formed term for each check (R70) -/

theorem test_wf_bitmask_len : (Instr.bitmask 128).wellFormed = false := by decide
theorem test_wf_getbf_pos : (Instr.getbf .normal .busA 128 1).wellFormed = false := by decide
theorem test_wf_getbf_len : (Instr.getbf .normal .busA 0 128).wellFormed = false := by decide
theorem test_wf_setbf_pos : (Instr.setbf 128 1).wellFormed = false := by decide
theorem test_wf_setbf_len : (Instr.setbf 0 128).wellFormed = false := by decide
theorem test_wf_nthbyte_n : (Instr.nthbyte .busA 128).wellFormed = false := by decide
theorem test_wf_out_of_range_is_wellFormed :
    (Instr.bitmask 65).wellFormed ∧ (Instr.getbf .normal .busA 60 8).wellFormed ∧ (Instr.nthbyte .busA 8).wellFormed := by
  decide

/-! ## Decode: words written out field by field from R61: RSV2, LEN, RSV1, POS, RSV0, SRC, SW, OP -/

theorem test_decode_bitmask : decode 0b000000000_0100000_0_0000000_00_0_0_0001#32 = .wellFormed (.bitmask 32) := by decide
theorem test_decode_getbf :
    decode 0b000000000_0000100_0_0000011_00_1_0_0010#32 = .wellFormed (.getbf .normal .word 3 4) := by decide
theorem test_decode_getbf_sw :
    decode 0b000000000_0100000_0_0010000_00_0_1_0010#32 = .wellFormed (.getbf .byteSwapped .busA 16 32) := by decide
theorem test_decode_setbf : decode 0b000000000_0000100_0_0000011_00_0_0_0011#32 = .wellFormed (.setbf 3 4) := by decide
theorem test_decode_nthbyte :
    decode 0b000000000_0000000_0_0000111_00_1_0_0100#32 = .wellFormed (.nthbyte .word 7) := by decide
theorem test_decode_rejects :
    decode 0x00000000#32 = .illegal ∧ decode 0x00000005#32 = .illegal ∧ decode 0x00FF8F0F#32 = .illegal ∧
    decode 0x00200041#32 = .reserved ∧ decode 0x00208002#32 = .reserved ∧ decode 0x80201002#32 = .reserved ∧
    decode 0x00080404#32 = .reserved := by decide
theorem test_decodeTableWord : decodeTableWord 32 0x00040303 = some (.setbf 3 4) ∧ decodeTableWord 32 0x00000013 = none := by
  decide

/-! ## One step each: the start state SA of 95_test_vectors.md, one command issued -/

/-- State SA with the command word and buses presented next. -/
def issued (cmd : Cmd) (a b : Word) : State :=
  { State.reset with word := 0x0123456789ABCDEF#64, r := 0x5555555555555555#64,
                     host := [.command { cmd := cmd, a := a, b := b }] }

/-- The registers after one step, where it answers a next state. -/
def after (s : State) : Option Registers :=
  match step s with
  | .next u => some u.registers
  | .fault _ => none
  | .refused _ => none

/-- V12 -/
theorem test_bitmask_63 :
    after (issued 0x003F0001#32 0 0) = some ⟨0x0123456789ABCDEF#64, 0x7FFFFFFFFFFFFFFF#64, 0x0000#16⟩ := by decide
/-- V13 -/
theorem test_bitmask_65 :
    after (issued 0x00410001#32 0 0) = some ⟨0x0123456789ABCDEF#64, 0x5555555555555555#64, 0x0103#16⟩ := by decide
/-- V31: a swapped field that is not byte-aligned -/
theorem test_getbf_swapped_unaligned : after (issued 0x00100312#32 0x0123456789ABCDEF#64 0) =
    some ⟨0x0123456789ABCDEF#64, 0x0000000000001A09#64, 0x0000#16⟩ := by decide
/-- V38: FIELD_RANGE before SWAP_WIDTH -/
theorem test_getbf_priority : after (issued 0x00093C12#32 0x0123456789ABCDEF#64 0) =
    some ⟨0x0123456789ABCDEF#64, 0x5555555555555555#64, 0x0105#16⟩ := by decide
/-- V43, from SA: excess value bits are dropped -/
theorem test_setbf_excess_bits : after (issued 0x00080403#32 0 0x00000000000001FF#64) =
    some ⟨0x0FF3456789ABCDEF#64, 0x5555555555555555#64, 0x0000#16⟩ := by decide
/-- V48, from SA -/
theorem test_setbf_out_of_range : after (issued 0x00043D03#32 0 0x000000000000000F#64) =
    some ⟨0x0123456789ABCDEF#64, 0x5555555555555555#64, 0x0105#16⟩ := by decide
/-- V51: `SRC = 1`, bus `a` ignored -/
theorem test_nthbyte_word : after (issued 0x00000124#32 0xFFFFFFFFFFFFFFFF#64 0) =
    some ⟨0x0123456789ABCDEF#64, 0x0000000000000023#64, 0x0000#16⟩ := by decide
/-- V52 -/
theorem test_nthbyte_index_8 : after (issued 0x00000804#32 0x0123456789ABCDEF#64 0) =
    some ⟨0x0123456789ABCDEF#64, 0x5555555555555555#64, 0x0106#16⟩ := by decide
/-- V70: CAUSE cleared, STICKY kept -/
theorem test_sticky_kept : after { issued 0x00080001#32 0 0 with status := 0x0105#16 } =
    some ⟨0x0123456789ABCDEF#64, 0x00000000000000FF#64, 0x0100#16⟩ := by decide
/-- V80 to V82: reset, a command in flight, a command issued under reset -/
theorem test_reset_moves :
    after { issued 0 0 0 with status := 0x0105#16, host := [.assertRst none] } = some ⟨0#64, 0#64, 0x0000#16⟩ ∧
    after { issued 0 0 0 with host := [.assertRst (some ⟨0x00400003#32, 0, 1⟩)] } = some ⟨0#64, 0#64, 0x0000#16⟩ ∧
    after { State.reset with rst := true, host := [.command ⟨0x00400003#32, 0, 0xFFFFFFFFFFFFFFFF#64⟩] } =
      some ⟨0#64, 0#64, 0x0000#16⟩ := by decide

/-- The word that `withFetchWord` places is the one the next step runs: `SETBF #3, #4` of a zero bus. -/
theorem test_withFetchWord : after ({ issued 0 0 0 with host := [], rst := true }.withFetchWord 32 0x00040303) =
    some ⟨0x0123456789ABCDEF#64 &&& 0xE1FFFFFFFFFFFFFF#64, 0x5555555555555555#64, 0x0000#16⟩ := by decide

/-- `BFU_LATENCY` is an integer of at least 1 (R246). -/
theorem test_latency_positive : 1 ≤ Config.bfuLatency := Nat.succ_le_succ (Nat.zero_le _)

/-- R69: a line with an annotation and a comment; an annotated pseudo-instruction. The braces are characters 123, 125. -/
theorem test_assemble_annotation :
    Assembler.assemble ("SETBF #3, #4 ".toList ++ [Char.ofNat 123] ++ "b = 0xF".toList ++ [Char.ofNat 125] ++ " ; x".toList) =
      .ok (some ⟨0x00040303#32, none, some 0xF#64⟩) ∧
    Assembler.assemble ("ldw".toList ++ [Char.ofNat 123] ++ "b=0x0402_574D".toList ++ [Char.ofNat 125]) =
      .ok (some ⟨0x00400003#32, none, some 0x0402574D#64⟩) := by constructor <;> rfl

/-- R69, R14: what is not written as the spec writes it is rejected: an underscore that groups nothing, an immediate parted from
its `#`, a second line. -/
theorem test_assemble_rejects :
    Assembler.assemble "BITMASK #6_".toList = .error .badLine ∧ Assembler.assemble "BITMASK # 6".toList = .error .badLine ∧
    Assembler.assemble "BITMASK\n#6".toList = .error .badLine := by refine ⟨?_, ?_, ?_⟩ <;> rfl

/-! ## Witnesses: concrete operands and states that meet the hypotheses of the statements -/

theorem witness_wellFormed_instructions :
    (Instr.bitmask 127).wellFormed ∧ (Instr.getbf .byteSwapped .word 127 127).wellFormed ∧
    (Instr.setbf 127 0).wellFormed ∧ (Instr.nthbyte .word 127).wellFormed := by decide

/-- For `EncodeOfDecodeIsTheWord`, `DecodeSortsWordsByTheirFields`. -/
theorem witness_EncodeOfDecodeIsTheWord : decode 0x007F7F32#32 = .wellFormed (.getbf .byteSwapped .word 127 127) := by decide

theorem witness_DecodeSortsWordsByTheirFields :
    decode 0x007F0001#32 = .wellFormed (.bitmask 127) ∧ decode 0x007F7F02#32 = .wellFormed (.getbf .normal .busA 127 127) ∧
    decode 0x00007F03#32 = .wellFormed (.setbf 127 0) ∧ decode 0x00007F24#32 = .wellFormed (.nthbyte .word 127) := by decide

theorem witness_MatchAndMaskDecideTheCommand :
    0x007F0001#32 &&& Opcode.bitmask.mask = Opcode.bitmask.pattern ∧
    0x00007F24#32 &&& Opcode.nthbyte.mask = Opcode.nthbyte.pattern := by decide

theorem witness_IllegalAndReservedWordsAreRejected :
    (issued 0x0000000F#32 1 2).rst = false ∧
    (issued 0x0000000F#32 1 2).host = .command ⟨0x0000000F#32, 1, 2⟩ :: [] ∧ decode 0x0000000F#32 = .illegal ∧
    (issued 0x00000013#32 1 2).host = .command ⟨0x00000013#32, 1, 2⟩ :: [] ∧ decode 0x00000013#32 = .reserved := by decide

/-- For the clauses over one pseudo-instruction, each at a boundary of its range. -/
theorem witness_PseudoInstructionsDoWhatTheirRowsSay (p : Pseudo) (a b : Word) :
    ({ State.reset with host := [.command (Pseudo.transaction p a b)] } : State).rst = false ∧
    ({ State.reset with host := [.command (Pseudo.transaction p a b)] } : State).host =
      .command (Pseudo.transaction p a b) :: [] ∧
    (63 ≤ 63 ∧ ValidField 60 4 ∧ ValidField 0 64 ∧ 7 ≤ 7 ∧ 127 ≤ 127) := ⟨rfl, rfl, by decide⟩

/-- For every statement about a valid field: the whole word, the last bit, a field in the middle. -/
theorem witness_valid_fields : ValidField 0 64 ∧ ValidField 63 1 ∧ ValidField 3 4 ∧ ValidField 12 8 := by decide

/-- For `BitmaskWidthRange`, `BitmaskBitByBit`, `BitmaskLaws`: both ends of the range, and above it. -/
theorem witness_BitmaskWidthRange : 0 ≤ 64 ∧ 64 ≤ 64 ∧ 64 < 65 ∧ 63 < 64 ∧ 1 ≤ 1 := by decide

/-- For `ByteswapReversesTheBytes`, `ExtractorLaws`: a two-byte value and the whole word. -/
theorem witness_ByteswapReversesTheBytes :
    16 % 8 = 0 ∧ 8 ≤ 16 ∧ 16 ≤ 64 ∧ (0x091A#64 : Word).toNat < 2 ^ 16 ∧
    64 % 8 = 0 ∧ (0xFFFFFFFFFFFFFFFF#64 : Word).toNat < 2 ^ 64 ∧ (0xFF#64 : Word).toNat < 2 ^ 8 := by decide

theorem witness_GetbfReturnsTheField :
    ValidField 0 64 ∧ (ByteOrder.byteSwapped = .byteSwapped → 64 % 8 = 0) ∧
    ValidField 60 3 ∧ (ByteOrder.normal = .byteSwapped → 3 % 8 = 0) := by decide

/-- Each clause of the range checks at the value where it begins. -/
theorem witness_GetbfRangeChecksInOrder :
    (0 = 0) ∧ (5 ≠ 0 ∧ 64 < 60 + 5) ∧ (9 ≠ 0 ∧ 55 + 9 ≤ 64 ∧ 9 % 8 ≠ 0) ∧ (8 ≠ 0 ∧ 56 + 8 ≤ 64 ∧ 8 % 8 = 0) := by decide

theorem witness_SetbfRangeChecksInOrder : (0 = 0) ∧ (1 ≠ 0 ∧ 64 < 64 + 1) ∧ (1 ≠ 0 ∧ 63 + 1 ≤ 64) := by decide

theorem witness_ExtractorLaws : ValidField 60 4 ∧ 1 ≤ 3 ∧ 3 < 4 ∧ 7 ≤ 7 := by decide

theorem witness_SetbfDiscardsExcessValueBits :
    ValidField 60 4 ∧ (∀ i < 4, (0xFFFFFFFFFFFFFFF5#64).getLsbD i = (0x5#64).getLsbD i) ∧
    ({ State.reset with word := 0x0123456789ABCDEF#64, b := 0xFFFFFFFFFFFFFFF5#64 } : State).b = 0xFFFFFFFFFFFFFFF5#64 := by
  decide

theorem witness_InserterLaws :
    ValidField 3 4 ∧ (0xF#64 : Word).toNat < 2 ^ 4 ∧ ValidField 7 8 ∧ 3 + 4 ≤ 7 := by decide

theorem witness_NthbyteIndexRange : 7 < 8 ∧ 7 ≤ 7 := by decide

theorem witness_StepRunsTheDecodedCommand :
    (issued 0x00040303#32 0 0xF#64).rst = false ∧
    (issued 0x00040303#32 0 0xF#64).host = .command ⟨0x00040303#32, 0, 0xF#64⟩ :: [] ∧
    decode 0x00040303#32 = .wellFormed (.setbf 3 4) := by decide

/-- For every statement about a command at the port: `StepPerformsThePseudocode`, `OutcomeTableOfEveryCommand`,
`CauseReportedIsTheFirstThatApplies`, `ErrSaysWhetherTheCommandWasRejected`, `StatusNeverAffectsAResult`. -/
theorem witness_command_at_the_port (cmd : Cmd) (a b : Word) :
    (issued cmd a b).rst = false ∧ (issued cmd a b).host = .command ⟨cmd, a, b⟩ :: [] := ⟨rfl, rfl⟩

/-- For `CommandsArePerformedInIssueOrder`, `StickyRecordsAnyRejection`: two commands, and a move after them. -/
theorem witness_CommandsArePerformedInIssueOrder :
    ({ State.reset with host := [.command ⟨0x00410001#32, 0, 0⟩, .command ⟨0x00400001#32, 0, 0⟩, .readPorts] } : State).host =
      commands [⟨0x00410001#32, 0, 0⟩, ⟨0x00400001#32, 0, 0⟩] ++ [.readPorts] := by decide

/-- An accepted word: `SETBF #3, #4`. -/
theorem witness_Accepted : Accepted 0x00040303#32 := by
  intro e; cases e <;> simp [hasCause, breaksReserved, slice]

/-- A word that reports each cause: V60, V67, V13, V33, V34, V52, V37. -/
theorem witness_Reports :
    Reports 0x00000000#32 .illegalOp ∧ Reports 0x00000013#32 .reservedField ∧ Reports 0x00410001#32 .widthRange ∧
    Reports 0x00000002#32 .zeroWidth ∧ Reports 0x00053C02#32 .fieldRange ∧ Reports 0x00000804#32 .byteIndex ∧
    Reports 0x00090012#32 .swapWidth := by
  refine ⟨⟨?_, ?_⟩, ⟨?_, ?_⟩, ⟨?_, ?_⟩, ⟨?_, ?_⟩, ⟨?_, ?_⟩, ⟨?_, ?_⟩, ⟨?_, ?_⟩⟩ <;>
    first
      | (intro e h; cases e <;> simp_all [BfuError.code, hasCause, breaksReserved, slice])
      | simp [hasCause, breaksReserved, slice]

/-- For `CommandAfterARejectionIsPerformed`: V13's word is rejected. -/
theorem witness_CommandAfterARejectionIsPerformed :
    ¬ Accepted 0x00410001#32 ∧ Accepted 0x00040303#32 ∧
    ({ State.reset with host := [.command ⟨0x00410001#32, 0, 0⟩, .command ⟨0x00040303#32, 0, 0xF#64⟩] } : State).rst = false :=
  ⟨fun h => h .widthRange witness_Reports.2.2.1.1, witness_Accepted, rfl⟩

theorem witness_WrittenFieldIsReadBack :
    ({ State.reset with host := [.command ⟨0x00040303#32, 0, 0xF#64⟩, .command ⟨0x00040322#32, 0, 0⟩] } : State).host =
      .command ⟨0x00040303#32, 0, 0xF#64⟩ :: .command ⟨0x00040322#32, 0, 0⟩ :: [] ∧
    decode 0x00040303#32 = .wellFormed (.setbf 3 4) ∧ decode 0x00040322#32 = .wellFormed (.getbf .normal .word 3 4) ∧
    ValidField 3 4 := by decide

theorem witness_CommandsKeepEverythingElse : (0x0107#16 : StatusWord) &&& 0xFEF0#16 = 0#16 := by decide

/-- A legal state other than reset: a rejection is shown. -/
theorem witness_EveryStepKeepsAStateLegal :
    Legal { issued 0x00040303#32 0 0xF#64 with status := 0x0107#16 } ∧
    after { issued 0x00040303#32 0 0xF#64 with status := 0x0107#16 } ≠ none := by
  refine ⟨⟨by unfold LegalStatus; decide, fun h => absurd h (by decide)⟩, by decide⟩

/-- The line `rst` asserted, in a legal state: a command, a release and no move. -/
theorem witness_ResetLineHoldsTheResetState :
    Legal { State.reset with rst := true, host := [.command ⟨0x00400003#32, 0, 1⟩] } ∧
    ({ State.reset with rst := true, host := [.releaseRst] } : State).host = .releaseRst :: [] ∧
    (∀ rest, ({ State.reset with rst := true } : State).host ≠ .releaseRst :: rest) ∧
    after { issued 0 0 0 with status := 0x0105#16, host := [.powerOn] } = some ⟨0#64, 0#64, 0#16⟩ ∧
    stickyOf 0x0105#16 = true ∧ stickyOf 0#16 = false := by
  refine ⟨⟨by unfold LegalStatus; decide, fun _ => ⟨rfl, rfl, rfl⟩⟩, rfl, by simp [State.reset], by decide, by decide, by decide⟩

theorem witness_IdleUnitHoldsItsState : State.reset.rst = false ∧ State.reset.host = [] := ⟨rfl, rfl⟩

theorem witness_PortsShowTheRegistersAndAreStable :
    ({ issued 0 0 0 with host := [.readPorts] } : State).rst = false ∧
    (∃ rest, ({ issued 0 0 0 with host := [.readPorts] } : State).host = .readPorts :: rest) ∧
    (∃ rest, ({ issued 0 0 0 with host := [.releaseRst] } : State).host = .releaseRst :: rest) := ⟨rfl, ⟨_, rfl⟩, ⟨_, rfl⟩⟩

/-- `SETBF` changes `WORD` from SA, `BITMASK` changes `R`; asserting `rst` changes both. -/
theorem witness_writers :
    (after (issued 0x00040303#32 0 0xF#64)).map Registers.word ≠ some (issued 0x00040303#32 0 0xF#64).word ∧
    (after (issued 0x00200001#32 0 0)).map Registers.r ≠ some (issued 0x00200001#32 0 0).r ∧
    (after { issued 0 0 0 with host := [.assertRst none] }).map Registers.word ≠ some (issued 0 0 0).word := by decide

/-- Immediates that fit and that do not, for `AssemblerChecksOnlyTheFieldWidth`. -/
theorem witness_AssemblerChecksOnlyTheFieldWidth :
    (∀ n ∈ Instr.immediates (.getbf .byteSwapped .word 127 127), n ≤ 127) ∧
    (∀ n ∈ Instr.immediates (.setbf 0 999), n < 1000) ∧ ¬ ∀ n ∈ Instr.immediates (.setbf 0 999), n ≤ 127 := by decide

/-- An accepted line of each kind, for `ReservedBitsAreOnlyWrittenAsRawWords`: V60's word has an illegal opcode. -/
theorem witness_ReservedBitsAreOnlyWrittenAsRawWords :
    Assembler.assemble "CLRW".toList = .ok (some ⟨0x00400003#32, none, some 0#64⟩) ∧
    Assembler.assemble ".word 0x0000_0000".toList = .ok (some ⟨0#32, none, none⟩) ∧ decode 0#32 = .illegal ∧
    WritesRawWord ".word 0x0000_0000".toList 0 := ⟨rfl, rfl, by decide, _, rfl⟩

end Sys2Proof.Tests
end

section
/-! The result of `GETBF` by the positions of the source word (00_scope.md R10, R13, R15; 41_extract.md R110, R113, R115). -/

namespace Sys2Proof.Machine

open Sys2Proof

/-- The mask of R110 bounds the extracted value by the width of the field. -/
theorem toNat_extract_lt {s n : Nat} (h : ValidField s n) (d : Word) : (extract d s n).toNat < 2 ^ n := by
  have hn : n ≤ 64 := by have := h.2; omega
  have hmask : (bitmask n).toNat < 2 ^ n := by
    rw [toNat_bitmask hn]
    exact Nat.sub_one_lt (Nat.two_pow_pos n).ne'
  rw [extract, BitVec.toNat_and]
  exact Nat.and_lt_two_pow _ hmask

/-- Both numberings meet at word bit `63 - (s + j)`: the shift of R110 moves it to bit `n - 1 - j`. -/
theorem getLsbD_extract_eq_posBit {s n j : Nat} (h : ValidField s n) (d : Word) (hj : j < n) :
    (extract d s n).getLsbD (n - 1 - j) = posBit d (s + j) := by
  have hs : s + n ≤ 64 := h.2
  have hin : n - 1 - j < n := by omega
  have hbit : 64 - s - n + (n - 1 - j) = 63 - (s + j) := by omega
  rw [getLsbD_extract h, hbit, posBit, decide_eq_true hin, Bool.true_and]

/-- `GETBF` on operands that pass its checks (R113, R114): it writes `R` and accepts. -/
theorem exec_getbf_of_validField {order : ByteOrder} {pos len : Nat} (h : ValidField pos len)
    (hsw : order = .byteSwapped → len % 8 = 0) (src : Source) (s : State) :
    exec (.getbf order src pos len) s =
      .next { s with r := getBitField (s.source src) pos len order, status := acceptedStatus s.status } :=
  exec_of_check_none (i := .getbf order src pos len) (getbfCheck_none.mpr ⟨h, hsw⟩) s

end Sys2Proof.Machine

open Sys2Proof.Machine

/-- Settles O18: `R` takes `extract`, whose bits are those of the source at the field's positions and which stays below
`2 ^ len`. -/
theorem getbfResultByPositions : Obligations.GetbfResultByPositions := by
  intro src pos len s h
  have hexec := exec_getbf_of_validField (order := .normal) h nofun src s
  exact ⟨_, hexec, fun j hj => getLsbD_extract_eq_posBit h (s.source src) hj, toNat_extract_lt h (s.source src)⟩
end

section
/-! The decoder and the range checks against the causes of 60_exceptions.md R201, said once: a command word is accepted exactly when no check finds an error. -/

namespace Sys2Proof.Machine

open Sys2Proof

/-- The value of `OP` for each row of the opcode map (R63). -/
def opNumber : Opcode → Nat
  | .bitmask => 1
  | .getbf => 2
  | .setbf => 3
  | .nthbyte => 4

theorem ofField_opField_eq_some {w : Cmd} {op : Opcode} :
    Opcode.ofField (opField w) = some op ↔ slice w 3 0 = opNumber op := by
  rw [Opcode.ofField, opField_eq_slice]
  split <;> cases op <;> simp_all [opNumber]

theorem ofField_opField_eq_none {w : Cmd} : Opcode.ofField (opField w) = none ↔ hasCause w .illegalOp := by
  rw [Option.eq_none_iff_forall_ne_some]
  constructor
  · intro h
    have ne : ∀ op, slice w 3 0 ≠ opNumber op := fun op e => h op (ofField_opField_eq_some.mpr e)
    have h1 := ne .bitmask
    have h2 := ne .getbf
    have h3 := ne .setbf
    have h4 := ne .nthbyte
    simp only [hasCause, opNumber] at *
    omega
  · intro h op e
    have e' := ofField_opField_eq_some.mp e
    cases op <;> simp only [hasCause, opNumber] at * <;> omega

/-- A word matches a row of R65 exactly when it has that row's `OP` and keeps the reserved and unused fields zero (R64). -/
theorem matches_iff_not_breaksReserved (w : Cmd) (op : Opcode) :
    w &&& op.mask = op.pattern ↔ slice w 3 0 = opNumber op ∧ ¬ breaksReserved w := by
  cases op with
  | bitmask => exact (matches_bitmask w).trans (by simp only [breaksReserved, opNumber]; omega)
  | getbf => exact (matches_getbf w).trans (by simp only [breaksReserved, opNumber]; omega)
  | setbf => exact (matches_setbf w).trans (by simp only [breaksReserved, opNumber]; omega)
  | nthbyte => exact (matches_nthbyte w).trans (by simp only [breaksReserved, opNumber]; omega)

theorem decode_of_illegalOp {w : Cmd} (h : hasCause w .illegalOp) : decode w = .illegal := by
  rw [decode, ofField_opField_eq_none.mpr h]

theorem decode_of_breaksReserved {w : Cmd} {op : Opcode} (h : slice w 3 0 = opNumber op) (hb : breaksReserved w) :
    decode w = .reserved := by
  rw [decode, ofField_opField_eq_some.mpr h]
  exact if_neg fun hm => ((matches_iff_not_breaksReserved w op).mp hm).2 hb

theorem decode_of_not_breaksReserved {w : Cmd} {op : Opcode} (h : slice w 3 0 = opNumber op) (hb : ¬ breaksReserved w) :
    decode w = .wellFormed (op.operands w) := by
  rw [decode, ofField_opField_eq_some.mpr h]
  exact if_pos ((matches_iff_not_breaksReserved w op).mpr ⟨h, hb⟩)

/-- Every word falls into one of the three classes of R67, with its row of R63 where it has one. -/
theorem decode_cases (w : Cmd) :
    (hasCause w .illegalOp ∧ decode w = .illegal) ∨
    (∃ op, slice w 3 0 = opNumber op ∧ breaksReserved w ∧ decode w = .reserved) ∨
    (∃ op, slice w 3 0 = opNumber op ∧ ¬ breaksReserved w ∧ decode w = .wellFormed (op.operands w)) := by
  rcases hop : Opcode.ofField (opField w) with _ | op
  · have h := ofField_opField_eq_none.mp hop
    exact .inl ⟨h, decode_of_illegalOp h⟩
  · have h := ofField_opField_eq_some.mp hop
    by_cases hb : breaksReserved w
    · exact .inr (.inl ⟨op, h, hb, decode_of_breaksReserved h hb⟩)
    · exact .inr (.inr ⟨op, h, hb, decode_of_not_breaksReserved h hb⟩)

/-! ### The range checks find a cause of R201, and miss none -/

theorem hasCause_of_rangeCheck {w : Cmd} {op : Opcode} {e : BfuError} (h : slice w 3 0 = opNumber op)
    (he : rangeCheck (op.operands w) = some e) : hasCause w e := by
  cases op with
  | bitmask =>
    simp only [Opcode.operands, rangeCheck, bitmaskCheck, lenField_eq_slice] at he
    split at he <;> cases he
    exact ⟨h, by omega⟩
  | getbf =>
    simp only [Opcode.operands, rangeCheck, getbfCheck, lenField_eq_slice, posField_eq_slice, swField_eq_slice] at he
    split at he
    · cases he; exact ⟨.inl h, by omega⟩
    · split at he
      · cases he; exact ⟨.inl h, by omega, by omega⟩
      · split at he <;> cases he
        rename_i hsw
        exact ⟨h, by simpa [ByteOrder.ofBit] using hsw⟩
  | setbf =>
    simp only [Opcode.operands, rangeCheck, setbfCheck, lenField_eq_slice, posField_eq_slice] at he
    split at he
    · cases he; exact ⟨.inr h, by omega⟩
    · split at he <;> cases he
      exact ⟨.inr h, by omega, by omega⟩
  | nthbyte =>
    simp only [Opcode.operands, rangeCheck, nthbyteCheck, posField_eq_slice] at he
    split at he <;> cases he
    exact ⟨h, by omega⟩

theorem accepted_of_rangeCheck_none {w : Cmd} {op : Opcode} (h : slice w 3 0 = opNumber op) (hb : ¬ breaksReserved w)
    (hc : rangeCheck (op.operands w) = none) : Accepted w := by
  intro e
  cases op with
  | bitmask =>
    have hn := bitmaskCheck_none.mp hc
    rw [lenField_eq_slice] at hn
    cases e <;> simp only [hasCause, breaksReserved, opNumber] at * <;> omega
  | getbf =>
    obtain ⟨⟨hn, hs⟩, hsw⟩ := getbfCheck_none.mp hc
    rw [lenField_eq_slice] at hn hs hsw
    rw [posField_eq_slice] at hs
    rw [swField_eq_slice] at hsw
    have hsw' : slice w 4 4 = 1 → slice w 22 16 % 8 = 0 := fun h1 => hsw (by simp [ByteOrder.ofBit, h1])
    cases e <;> simp only [hasCause, breaksReserved, opNumber] at * <;> omega
  | setbf =>
    obtain ⟨hn, hs⟩ := setbfCheck_none.mp hc
    rw [lenField_eq_slice] at hn hs
    rw [posField_eq_slice] at hs
    cases e <;> simp only [hasCause, breaksReserved, opNumber] at * <;> omega
  | nthbyte =>
    have hk := nthbyteCheck_none.mp hc
    rw [posField_eq_slice] at hk
    cases e <;> simp only [hasCause, breaksReserved, opNumber] at * <;> omega

/-- The error of a command word is a cause the word has (R201). -/
theorem hasCause_of_wordCheck {w : Cmd} {e : BfuError} (h : wordCheck w = some e) : hasCause w e := by
  obtain ⟨hill, hd⟩ | ⟨op, hop, hb, hd⟩ | ⟨op, hop, hb, hd⟩ := decode_cases w <;> rw [wordCheck, hd] at h
  · cases h; exact hill
  · cases h; exact hb
  · exact hasCause_of_rangeCheck hop h

/-- A command word is accepted exactly when neither its decoding nor its range checks find an error (R200). -/
theorem accepted_iff_wordCheck_none {w : Cmd} : Accepted w ↔ wordCheck w = none := by
  constructor
  · intro ha
    by_contra hne
    obtain ⟨e, he⟩ := Option.ne_none_iff_exists'.mp hne
    exact ha e (hasCause_of_wordCheck he)
  · intro h
    obtain ⟨-, hd⟩ | ⟨op, -, -, hd⟩ | ⟨op, hop, hb, hd⟩ := decode_cases w <;> rw [wordCheck, hd] at h
    · cases h
    · cases h
    · exact accepted_of_rangeCheck_none hop hb h

end Sys2Proof.Machine
end

section
/-! What a command and a step can do to the registers (10_state.md R20 to R34), and the statements about them. -/

namespace Sys2Proof.Machine

open Sys2Proof

/-! ### Command words by their check -/

theorem runWord_of_wordCheck_some {w : Cmd} {e : BfuError} (h : wordCheck w = some e) (s : State) :
    runWord w s = .next (s.reject e) := by
  obtain ⟨e', he, hs⟩ | ⟨i, -, hn, -⟩ := runWord_cases w s
  · rw [h] at he; cases he; exact hs
  · rw [h] at hn; cases hn

theorem runWord_of_rangeCheck_none {w : Cmd} {i : Instr} (hd : decode w = .wellFormed i) (hc : rangeCheck i = none)
    (s : State) :
    runWord w s = .next { s with word := wordOf s i, r := resultOf s i, status := acceptedStatus s.status } := by
  rw [runWord_wellFormed hd, exec_of_check_none hc]

/-- A command at the port is rejected with its error, or performs its instruction on the buses its move drives. -/
theorem step_command_cases {s : State} {t : Transaction} {rest : List HostMove} (h : s.host = .command t :: rest)
    (hr : s.rst = false) :
    (¬ Accepted t.cmd ∧ ∃ e, step s = .next (((s.advance rest).drive t).reject e)) ∨
    (Accepted t.cmd ∧ ∃ i, decode t.cmd = .wellFormed i ∧ rangeCheck i = none ∧
      step s = .next { (s.advance rest).drive t with
        word := wordOf ((s.advance rest).drive t) i
        r := resultOf ((s.advance rest).drive t) i
        status := acceptedStatus s.status }) := by
  rw [step_command h hr, accepted_iff_wordCheck_none]
  obtain ⟨e, hc, hs⟩ | ⟨i, hd, hn, hc, hs⟩ := runWord_cases t.cmd ((s.advance rest).drive t)
  · exact .inl ⟨by simp [hc], e, hs⟩
  · exact .inr ⟨hn, i, hd, hc, hs⟩

/-! ### The registers an instruction writes -/

theorem wordOf_of_ne_setbf {i : Instr} (h : ∀ pos len, i ≠ .setbf pos len) (s : State) : wordOf s i = s.word := by
  cases i with
  | setbf pos len => exact absurd rfl (h pos len)
  | bitmask len => rfl
  | getbf order src pos len => rfl
  | nthbyte src n => rfl

/-- Only `SETBF` changes `WORD`. -/
theorem eq_setbf_of_wordOf_ne {i : Instr} {s : State} (h : wordOf s i ≠ s.word) : ∃ pos len, i = .setbf pos len := by
  by_contra hne
  exact h (wordOf_of_ne_setbf (fun pos len e => hne ⟨pos, len, e⟩) s)

theorem resultOf_setbf (pos len : Nat) (s : State) : resultOf s (.setbf pos len) = s.r := rfl

/-- The value written to `WORD` does not depend on `STATUS` (R30). -/
theorem wordOf_withStatus (s : State) (st : StatusWord) (i : Instr) : wordOf { s with status := st } i = wordOf s i := by
  cases i <;> rfl

/-- The value written to `R` does not depend on `STATUS` (R30). -/
theorem resultOf_withStatus (s : State) (st : StatusWord) (i : Instr) :
    resultOf { s with status := st } i = resultOf s i := by
  cases i with
  | bitmask len => rfl
  | getbf order src pos len => cases src <;> rfl
  | setbf pos len => rfl
  | nthbyte src n => cases src <;> rfl

/-! ### Every step -/

theorem State.registers_eq_iff {s : State} {w r : Word} {st : StatusWord} :
    s.registers = ⟨w, r, st⟩ ↔ s.word = w ∧ s.r = r ∧ s.status = st := by
  simp [State.registers]

theorem State.registers_clear (s : State) : s.clear.registers = ⟨0#64, 0#64, 0#16⟩ := rfl

theorem registers_assertReset (inFlight : Option Transaction) (s : State) :
    (assertReset inFlight s).registers = ⟨0#64, 0#64, 0#16⟩ := by
  cases inFlight <;> rfl

theorem releaseReset_asserted {s : State} (h : s.rst = true) : releaseReset s = { s.clear with rst := false } := by
  rw [releaseReset, underRst_asserted h]

theorem releaseReset_released {s : State} (h : s.rst = false) : releaseReset s = s := by
  rw [releaseReset, underRst_released h, ← h]

/-- A step of a released unit that neither issues a command nor resets: no move, a read, or another release. -/
theorem step_quiet {s : State} (hr : s.rst = false)
    (h : s.host = [] ∨ (∃ rest, s.host = .readPorts :: rest) ∨ (∃ rest, s.host = .releaseRst :: rest)) :
    step s = .next (s.advance s.host.tail) := by
  obtain hh | ⟨rest, hh⟩ | ⟨rest, hh⟩ := h
  · rw [step_idle hh, underRst_released hr, State.advance, hh, List.tail_nil, ← hh]
  · rw [step_move hh, hostMove, underRst_released (by simpa using hr), hh, List.tail_cons]
  · rw [step_move hh, hostMove, releaseReset_released (by simpa using hr), hh, List.tail_cons]

/-- Under an asserted `rst` every step leaves the registers at their reset values (R240). -/
theorem step_asserted {s : State} (hr : s.rst = true) :
    ∃ u, step s = .next u ∧ u.registers = ⟨0#64, 0#64, 0#16⟩ := by
  rcases hh : s.host with _ | ⟨m, rest⟩
  · exact ⟨_, step_idle hh, by rw [underRst_asserted hr, State.registers_clear]⟩
  · have hr' : (s.advance rest).rst = true := hr
    cases m with
    | command t => exact ⟨_, step_command_underRst hh hr, rfl⟩
    | assertRst inFlight => exact ⟨_, step_move hh, registers_assertReset inFlight _⟩
    | releaseRst => exact ⟨_, step_move hh, by rw [releaseReset_asserted hr']; rfl⟩
    | powerOn => exact ⟨_, step_move hh, rfl⟩
    | readPorts => exact ⟨_, step_move hh, by rw [underRst_asserted hr', State.registers_clear]⟩

/-- A move that resets the unit leaves the registers at their reset values (R33, R240). -/
theorem step_resets {s : State} {m : HostMove} {rest : List HostMove} (h : s.host = m :: rest) (hm : m.resets = true) :
    ∃ u, step s = .next u ∧ u.registers = ⟨0#64, 0#64, 0#16⟩ := by
  cases m with
  | assertRst inFlight => exact ⟨_, step_move h, registers_assertReset inFlight _⟩
  | powerOn => exact ⟨_, step_move h, rfl⟩
  | command t => cases hm
  | releaseRst => cases hm
  | readPorts => cases hm

/-- The next move of the host is a command, resets the unit, or is one of the quiet ones. -/
theorem host_cases (s : State) :
    (∃ t rest, s.host = .command t :: rest) ∨ (∃ m rest, s.host = m :: rest ∧ m.resets = true) ∨
    (s.host = [] ∨ (∃ rest, s.host = .readPorts :: rest) ∨ (∃ rest, s.host = .releaseRst :: rest)) := by
  rcases s.host with _ | ⟨m, rest⟩
  · simp
  · cases m <;> simp [HostMove.resets]

/-- What a step can do: run a command on a released unit, leave the registers at their reset values, or leave a released
unit's registers as they are. -/
theorem step_cases {s u : State} (h : step s = .next u) :
    (∃ t rest, s.host = .command t :: rest ∧ s.rst = false) ∨
    (u.registers = ⟨0#64, 0#64, 0#16⟩ ∧ (s.rst = true ∨ ∃ m rest, s.host = m :: rest ∧ m.resets = true)) ∨
    (u.rst = false ∧ u.registers = s.registers) := by
  by_cases hr : s.rst = true
  · obtain ⟨v, hv, hreg⟩ := step_asserted hr
    rw [h] at hv; cases hv
    exact .inr (.inl ⟨hreg, .inl hr⟩)
  · have hr' : s.rst = false := by simpa using hr
    obtain ⟨t, rest, hh⟩ | ⟨m, rest, hh, hm⟩ | hq := host_cases s
    · exact .inl ⟨t, rest, hh, hr'⟩
    · obtain ⟨v, hv, hreg⟩ := step_resets hh hm
      rw [h] at hv; cases hv
      exact .inr (.inl ⟨hreg, .inr ⟨m, rest, hh, hm⟩⟩)
    · rw [step_quiet hr' hq] at h; cases h
      exact .inr (.inr ⟨hr', rfl⟩)

/-! ### Legal states -/

theorem legal_of_registers_zero {s : State} (h : s.registers = ⟨0#64, 0#64, 0#16⟩) : Legal s := by
  obtain ⟨hw, hr, hst⟩ := State.registers_eq_iff.mp h
  refine ⟨?_, fun _ => ⟨hw, hr, hst⟩⟩
  rw [hst]; unfold LegalStatus; decide

/-- A state with `rst` released is legal when its `STATUS` is. -/
theorem legal_of_released {s : State} (hr : s.rst = false) (h : LegalStatus s.status) : Legal s :=
  ⟨h, fun ht => absurd (hr.symm.trans ht) (by decide)⟩

/-- A command leaves a legal `STATUS`, whatever the one before (R202, R203). -/
theorem legal_of_step_command {s u : State} {t : Transaction} {rest : List HostMove} (h : s.host = .command t :: rest)
    (hr : s.rst = false) (hs : step s = .next u) : Legal u := by
  obtain ⟨-, e, he⟩ | ⟨-, i, -, -, hi⟩ := step_command_cases h hr
  · rw [he] at hs; cases hs
    exact legal_of_released hr (rejectedStatus_legal e)
  · rw [hi] at hs; cases hs
    exact legal_of_released hr (acceptedStatus_legal s.status)

/-! ### `STICKY` and `err` after a command -/

theorem err_ports_eq_true {s : State} : s.ports.err = true ↔ causeOf s.status ≠ 0#4 := by
  simp [State.ports, errOf]

/-- What a command leaves in `STICKY` and `err`, and of the host's lines (R28, R29). -/
theorem step_command_status {s : State} {t : Transaction} {rest : List HostMove} (h : s.host = .command t :: rest)
    (hr : s.rst = false) :
    ∃ u, step s = .next u ∧ u.rst = false ∧ u.host = rest ∧
      (stickyOf u.status = true ↔ stickyOf s.status = true ∨ ¬ Accepted t.cmd) ∧
      (u.ports.err = true ↔ ¬ Accepted t.cmd) := by
  obtain ⟨ha, e, he⟩ | ⟨ha, i, -, -, hi⟩ := step_command_cases h hr
  · exact ⟨_, he, hr, rfl, by simp [ha], by simp [ha, err_ports_eq_true, e.code_ne_zero]⟩
  · exact ⟨_, hi, hr, rfl, by simp [ha], by simp [ha, err_ports_eq_true]⟩

/-- `STICKY` after a list of commands, by induction on the list (R28). -/
theorem run_commands_sticky (ts : List Transaction) (s : State) (rest : List HostMove) (hr : s.rst = false)
    (h : s.host = commands ts ++ rest) :
    ∃ u, core.run ts.length s = .next u ∧
      (stickyOf u.status = true ↔ stickyOf s.status = true ∨ ∃ t ∈ ts, ¬ Accepted t.cmd) := by
  induction ts generalizing s with
  | nil => exact ⟨s, rfl, by simp⟩
  | cons t ts ih =>
    obtain ⟨v, hv, hvr, hvh, hsticky, -⟩ := step_command_status (rest := commands ts ++ rest) h hr
    obtain ⟨u, hu, hus⟩ := ih v hvr hvh
    refine ⟨u, (run_succ ts.length hv).trans hu, ?_⟩
    rw [hus, hsticky, List.exists_mem_cons_iff, or_assoc]

/-! ### `SETBF` by the positions of the word -/

/-- Position `p` is word bit `63 - p`, so the field `[sh, sh + n)` of R130 is the positions `[s, s + n)` (R10, R13). -/
theorem posBit_insert {s n p : Nat} (h : ValidField s n) (d v : Word) (hp : p < 64) :
    posBit (insert d v s n) p = if s ≤ p ∧ p < s + n then v.getLsbD (s + n - 1 - p) else posBit d p := by
  obtain ⟨hn, hs⟩ := id h
  have hin : (fieldShift s n ≤ 63 - p ∧ 63 - p < fieldShift s n + n) ↔ (s ≤ p ∧ p < s + n) := by
    simp only [fieldShift]; omega
  have hbit (hf : s ≤ p ∧ p < s + n) : 63 - p - fieldShift s n = s + n - 1 - p := by
    simp only [fieldShift]; omega
  rw [posBit, getLsbD_insert h d v (by omega)]
  by_cases hf : s ≤ p ∧ p < s + n
  · rw [if_pos (hin.mpr hf), if_pos hf, hbit hf]
  · rw [if_neg (mt hin.mp hf), if_neg hf, posBit]

/-- `SETBF` on a valid field writes `WORD` and accepts (R131, R132). -/
theorem exec_setbf_of_validField {pos len : Nat} (h : ValidField pos len) (s : State) :
    exec (.setbf pos len) s = .next { s with word := insert s.word s.b pos len, status := acceptedStatus s.status } :=
  exec_of_check_none (i := .setbf pos len) (setbfCheck_none.mpr h) s

end Sys2Proof.Machine

open Sys2Proof.Machine

/-- Settles O43: each command adds its own rejection to `STICKY`, by induction on the list of commands. -/
theorem stickyRecordsAnyRejection : Obligations.StickyRecordsAnyRejection := run_commands_sticky

/-- Settles O49: a command leaves a legal `STATUS`, a reset the reset values, and any other step the registers of a released
unit. -/
theorem everyStepKeepsAStateLegal : Obligations.EveryStepKeepsAStateLegal := by
  intro s u hs hstep
  obtain ⟨t, rest, hh, hr⟩ | ⟨hz, -⟩ | ⟨hur, hreg⟩ := step_cases hstep
  · exact legal_of_step_command hh hr hstep
  · exact legal_of_registers_zero hz
  · have hst : u.status = s.status := congrArg Registers.status hreg
    exact legal_of_released hur (hst ▸ hs.1)

/-- Settles O22: `WORD` takes `insert`, read by positions. -/
theorem setbfKeepsBitsOutsideTheField : Obligations.SetbfKeepsBitsOutsideTheField := by
  intro pos len s h
  exact ⟨_, exec_setbf_of_validField h s, rfl, fun p hp => posBit_insert h s.word s.b hp⟩

/-- Settles O35: a rejection writes `STATUS` alone, and an accepted command `STATUS` and the one register of its kind. -/
theorem commandsKeepEverythingElse : Obligations.CommandsKeepEverythingElse := by
  intro i s hs
  rcases hc : rangeCheck i with _ | e
  · refine ⟨_, exec_of_check_none hc s, rfl, rfl, rfl, rfl, ?_, ?_, fun hi => wordOf_of_ne_setbf hi s, ?_⟩
    · exact (acceptedStatus_legal s.status).1.trans hs.symm
    · by_cases hw : wordOf s i = s.word
      · exact .inl hw
      · obtain ⟨pos, len, rfl⟩ := eq_setbf_of_wordOf_ne hw
        exact .inr (resultOf_setbf pos len s)
    · rintro pos len rfl
      exact resultOf_setbf pos len s
  · exact ⟨_, exec_of_check_some hc s, rfl, rfl, rfl, rfl, (rejectedStatus_legal e).1.trans hs.symm, .inl rfl,
      fun _ => rfl, fun _ _ _ => rfl⟩

/-- Settles O42: `err` reads `CAUSE`, which a command leaves 0 exactly when it was accepted. -/
theorem errSaysWhetherTheCommandWasRejected : Obligations.ErrSaysWhetherTheCommandWasRejected := by
  refine ⟨fun s => err_ports_eq_true, fun s t rest hr hh => ?_⟩
  obtain ⟨u, hu, -, -, -, herr⟩ := step_command_status hh hr
  exact ⟨u, hu, herr⟩

/-- Settles O44: the checks read the command word alone, and the values written do not depend on `STATUS`. -/
theorem statusNeverAffectsAResult : Obligations.StatusNeverAffectsAResult := by
  intro s st t rest hr hh
  have hstep := step_command hh hr
  have hstep' : step { s with status := st } = runWord t.cmd { (s.advance rest).drive t with status := st } :=
    step_command (s := { s with status := st }) hh hr
  obtain ⟨e, hc, hs⟩ | ⟨i, hd, -, hc, hs⟩ := runWord_cases t.cmd ((s.advance rest).drive t)
  · exact ⟨_, _, hstep.trans hs, hstep'.trans (runWord_of_wordCheck_some hc _), rfl, rfl, rfl⟩
  · refine ⟨_, _, hstep.trans hs, hstep'.trans (runWord_of_rangeCheck_none hd hc _), ?_, ?_, ?_⟩
    · exact (wordOf_withStatus _ st i).symm
    · exact (resultOf_withStatus _ st i).symm
    · simp

/-- Settles O52: of the commands only an accepted `SETBF` changes `WORD`. -/
theorem onlySetbfAndResetWriteWord : Obligations.OnlySetbfAndResetWriteWord := by
  intro s u hstep hne
  obtain ⟨t, rest, hh, hr⟩ | ⟨hz, hreset⟩ | ⟨-, hreg⟩ := step_cases hstep
  · obtain ⟨-, e, he⟩ | ⟨-, i, hd, hc, hi⟩ := step_command_cases hh hr
    · rw [he] at hstep; cases hstep
      exact absurd rfl hne
    · rw [hi] at hstep; cases hstep
      obtain ⟨pos, len, rfl⟩ := eq_setbf_of_wordOf_ne hne
      exact .inl ⟨t, rest, pos, len, hh, hr, hd, setbfCheck_none.mp hc, rfl⟩
  · exact .inr ⟨(State.registers_eq_iff.mp hz).1, hreset⟩
  · exact absurd (congrArg Registers.word hreg) hne

/-- Settles O53: an accepted `SETBF` and a rejection keep `R`. -/
theorem onlyReadersAndResetWriteResult : Obligations.OnlyReadersAndResetWriteResult := by
  intro s u hstep hne
  obtain ⟨t, rest, hh, hr⟩ | ⟨hz, hreset⟩ | ⟨-, hreg⟩ := step_cases hstep
  · obtain ⟨-, e, he⟩ | ⟨ha, i, hd, -, hi⟩ := step_command_cases hh hr
    · rw [he] at hstep; cases hstep
      exact absurd rfl hne
    · rw [hi] at hstep; cases hstep
      exact .inl ⟨t, rest, i, hh, hr, hd, ha, fun pos len e => hne (e ▸ resultOf_setbf pos len _)⟩
  · exact .inr ⟨(State.registers_eq_iff.mp hz).2.1, hreset⟩
  · exact absurd (congrArg Registers.r hreg) hne

/-- Settles O46: the reset state is all zero, and asserting `rst` clears the registers with or without a command in
flight. -/
theorem resetSetsEveryRegister : Obligations.ResetSetsEveryRegister := by
  refine ⟨⟨rfl, rfl, rfl, rfl, rfl, rfl⟩, fun s inFlight rest hh => ?_⟩
  exact step_resets hh rfl

/-- Settles O48: the registers are zero right after reset. -/
theorem resetStateIsLegal : Obligations.ResetStateIsLegal := legal_of_registers_zero rfl

/-- Settles O51: the ports read the registers, which a quiet step of a released unit keeps. -/
theorem portsShowTheRegistersAndAreStable : Obligations.PortsShowTheRegistersAndAreStable := by
  refine ⟨fun s => ⟨rfl, rfl, rfl, ?_⟩, fun s hr hq => ⟨_, step_quiet hr hq, rfl⟩, fun s rest hr hh => ?_⟩
  · rw [Bool.eq_iff_iff, err_ports_eq_true, decide_eq_true_iff]
  · rw [step_quiet hr (.inr (.inl ⟨rest, hh⟩)), hh]; rfl
end

section
/-! A command at the port against the pseudocode of 50_step.md R150, and a list of commands against its repetition (20_memory.md R46). -/

namespace Sys2Proof.Machine

open Sys2Proof

/-! ### The table of R65 and the two ends of the pseudocode -/

theorem matchMask_opNumber (op : Opcode) : matchMask (opNumber op) = some (op.pattern.toNat, op.mask.toNat) := by
  cases op <;> rfl

theorem matchMask_of_illegalOp {w : Cmd} (h : hasCause w .illegalOp) : matchMask (slice w 3 0) = none := by
  have hne : slice w 3 0 ≠ 1 ∧ slice w 3 0 ≠ 2 ∧ slice w 3 0 ≠ 3 ∧ slice w 3 0 ≠ 4 := by
    simp only [hasCause] at h; omega
  rw [matchMask, List.lookup_eq_none_iff]
  simpa using hne

/-- The pseudocode's `STATUS` of a rejection is the one the machine makes (R202). -/
theorem State.registers_reject (s : State) (e : BfuError) :
    (s.reject e).registers = s.registers.reject e.code.toNat := by
  cases e <;> rfl

/-- The pseudocode's `STATUS` of an accepted command is the one the machine makes (R203). -/
theorem State.registers_accept (s : State) : s.accept.registers = s.registers.accept := by
  simp only [State.registers, Registers.accept, State.accept, acceptedStatus_eq_and]

/-! ### Stage 1 of R150 -/

theorem pseudocodeStep_of_illegalOp {w : Cmd} (h : hasCause w .illegalOp) (g : Registers) (a b : Word) :
    pseudocodeStep g w a b = g.reject 1 := by
  rw [pseudocodeStep, matchMask_of_illegalOp h]

/-- Where `OP` is assigned, the pseudocode compares the masked word with the row of R65 as numbers. -/
theorem pseudocodeStep_of_op {w : Cmd} {op : Opcode} (h : slice w 3 0 = opNumber op) (g : Registers) (a b : Word) :
    pseudocodeStep g w a b = if w &&& op.mask = op.pattern then pseudocodeCase g w a b else g.reject 2 := by
  rw [pseudocodeStep, h, matchMask_opNumber]
  simp only [← BitVec.toNat_and, ne_eq, ← BitVec.toNat_inj, ite_not]

theorem pseudocodeStep_of_breaksReserved {w : Cmd} {op : Opcode} (h : slice w 3 0 = opNumber op)
    (hb : breaksReserved w) (g : Registers) (a b : Word) : pseudocodeStep g w a b = g.reject 2 := by
  rw [pseudocodeStep_of_op h, if_neg fun hm => ((matches_iff_not_breaksReserved w op).mp hm).2 hb]

theorem pseudocodeStep_of_not_breaksReserved {w : Cmd} {op : Opcode} (h : slice w 3 0 = opNumber op)
    (hb : ¬ breaksReserved w) (g : Registers) (a b : Word) : pseudocodeStep g w a b = pseudocodeCase g w a b := by
  rw [pseudocodeStep_of_op h, if_pos ((matches_iff_not_breaksReserved w op).mpr ⟨h, hb⟩)]

/-! ### Stages 2 and 3 of R150, one operation at a time -/

/-- `SRC` selects the same word in the machine and in the pseudocode (R62). -/
theorem source_ofBit_srcField (w : Cmd) (s : State) :
    s.source (.ofBit (srcField w)) = if slice w 5 5 = 0 then s.a else s.word := by
  have hlt : slice w 5 5 < 2 := slice_lt w 5 5
  rw [srcField_eq_slice]
  by_cases h : slice w 5 5 = 0
  · simp [h, Source.ofBit, State.source]
  · have h1 : slice w 5 5 = 1 := by omega
    simp [h1, Source.ofBit, State.source]

/-- `SW` selects the same form of the field (R112). -/
theorem getBitField_ofBit_swField (w : Cmd) (d : Word) (s n : Nat) :
    getBitField d s n (.ofBit (swField w)) = if slice w 4 4 = 1 then byteswap (extract d s n) n else extract d s n := by
  rw [swField_eq_slice]
  by_cases h : slice w 4 4 = 1 <;> simp [h, ByteOrder.ofBit, getBitField]

theorem ofBit_swField_eq_byteSwapped {w : Cmd} : ByteOrder.ofBit (swField w) = .byteSwapped ↔ slice w 4 4 = 1 := by
  simp [swField_eq_slice, ByteOrder.ofBit]

/-- Stages 2 and 3 of R150 from the error that the range checks find: rejected with its code, or accepted with the operation's
write done. -/
def pseudocodeEnd (g done : Registers) : Option BfuError → Registers
  | some e => g.reject e.code.toNat
  | none => done.accept

@[simp] theorem pseudocodeEnd_some (g done : Registers) (e : BfuError) :
    pseudocodeEnd g done (some e) = g.reject e.code.toNat := rfl

@[simp] theorem pseudocodeEnd_none (g done : Registers) : pseudocodeEnd g done none = done.accept := rfl

/-- A range check is one branch of the pseudocode. -/
@[simp] theorem pseudocodeEnd_ite (g done : Registers) (p : Prop) [Decidable p] (c c' : Option BfuError) :
    pseudocodeEnd g done (if p then c else c') = if p then pseudocodeEnd g done c else pseudocodeEnd g done c' :=
  apply_ite (pseudocodeEnd g done) p c c'

/-- The machine ends a command as the pseudocode does. -/
theorem registers_of_finish {check : Option BfuError} {done s u : State} (h : finish check done s = .next u) :
    u.registers = pseudocodeEnd s.registers done.registers check := by
  cases check with
  | some e => cases h; exact State.registers_reject s e
  | none => cases h; exact State.registers_accept done

@[simp] theorem State.word_registers (s : State) : s.registers.word = s.word := rfl

@[simp] theorem State.registers_writeR (s : State) (v : Word) : (s.writeR v).registers =
    { s.registers with r := v } := rfl

@[simp] theorem State.registers_writeWord (s : State) (v : Word) : (s.writeWord v).registers =
    { s.registers with word := v } := rfl

/-- The meaning of each operation is the pseudocode's case of its `OP`: the same checks in the same order, the same write. -/
theorem registers_exec_operands {w : Cmd} {op : Opcode} (h : slice w 3 0 = opNumber op) {s u : State}
    (hu : exec (op.operands w) s = .next u) : u.registers = pseudocodeCase s.registers w s.a s.b := by
  cases op with
  | bitmask =>
    rw [registers_of_finish hu]
    simp [bitmaskCheck, pseudocodeCase, h, opNumber, lenField_eq_slice, BfuError.code]
  | getbf =>
    rw [registers_of_finish hu]
    simp [getbfCheck, pseudocodeCase, h, opNumber, lenField_eq_slice, posField_eq_slice,
      BfuError.code, ofBit_swField_eq_byteSwapped, getBitField_ofBit_swField, source_ofBit_srcField]
  | setbf =>
    rw [registers_of_finish hu]
    simp [setbfCheck, pseudocodeCase, h, opNumber, lenField_eq_slice, posField_eq_slice,
      BfuError.code, State.value]
  | nthbyte =>
    rw [registers_of_finish hu]
    simp [nthbyteCheck, pseudocodeCase, h, opNumber, posField_eq_slice, BfuError.code,
      source_ofBit_srcField]

/-! ### A command word, a step and a run -/

/-- No meaning stops the machine: a rejection has a next state too (R200). -/
theorem exec_answers_next (i : Instr) (s : State) : ∃ u, exec i s = .next u := by
  rcases hc : rangeCheck i with _ | e
  · exact ⟨_, exec_of_check_none hc s⟩
  · exact ⟨_, exec_of_check_some hc s⟩

/-- A command word writes registers alone: the line `rst` and the host's moves stay. -/
theorem runWord_keeps_host_lines {w : Cmd} {s u : State} (h : runWord w s = .next u) :
    u.rst = s.rst ∧ u.host = s.host := by
  obtain ⟨e, -, hs⟩ | ⟨i, -, -, -, hs⟩ := runWord_cases w s <;> rw [hs] at h <;> cases h <;> exact ⟨rfl, rfl⟩

/-- A command word performs the pseudocode on the registers and buses, class by class of R67. -/
theorem runWord_registers (w : Cmd) (s : State) :
    ∃ u, runWord w s = .next u ∧ u.registers = pseudocodeStep s.registers w s.a s.b := by
  obtain ⟨hill, hd⟩ | ⟨op, hop, hb, hd⟩ | ⟨op, hop, hb, hd⟩ := decode_cases w
  · refine ⟨_, runWord_illegal hd s, ?_⟩
    rw [pseudocodeStep_of_illegalOp hill]; exact State.registers_reject s .illegalOp
  · refine ⟨_, runWord_reserved hd s, ?_⟩
    rw [pseudocodeStep_of_breaksReserved hop hb]; exact State.registers_reject s .reservedField
  · obtain ⟨u, hu⟩ := exec_answers_next (op.operands w) s
    refine ⟨u, (runWord_wellFormed hd s).trans hu, ?_⟩
    rw [pseudocodeStep_of_not_breaksReserved hop hb, registers_exec_operands hop hu]

/-- A command at the port performs the pseudocode (R150), and its move alone is taken from the list. -/
theorem step_performs_pseudocode {s : State} {t : Transaction} {rest : List HostMove} (hr : s.rst = false)
    (h : s.host = .command t :: rest) :
    ∃ u, step s = .next u ∧ u.registers = pseudocodeStep s.registers t.cmd t.a t.b ∧ u.rst = false ∧ u.host = rest := by
  obtain ⟨u, hu, hreg⟩ := runWord_registers t.cmd ((s.advance rest).drive t)
  obtain ⟨hurst, huhost⟩ := runWord_keeps_host_lines hu
  exact ⟨u, (step_command h hr).trans hu, hreg, hurst.trans hr, huhost⟩

/-- The list of commands is performed from the front, each command on what the one before left (R46). -/
theorem run_commands_registers (ts : List Transaction) (s : State) (rest : List HostMove) (hr : s.rst = false)
    (h : s.host = commands ts ++ rest) :
    ∃ u, core.run ts.length s = .next u ∧ u.registers = pseudocodeRun s.registers ts ∧ u.rst = false ∧ u.host = rest := by
  induction ts generalizing s with
  | nil => exact ⟨s, rfl, rfl, hr, h⟩
  | cons t ts ih =>
    obtain ⟨v, hv, hvreg, hvr, hvh⟩ := step_performs_pseudocode (rest := commands ts ++ rest) hr h
    obtain ⟨u, hu, hureg, hur, huh⟩ := ih v hvr hvh
    exact ⟨u, (run_succ ts.length hv).trans hu, by rw [hureg, hvreg]; rfl, hur, huh⟩

end Sys2Proof.Machine

open Sys2Proof.Machine

/-- Settles O32: one step performs the pseudocode of R150, and the run follows by induction on the list of commands. -/
theorem commandsArePerformedInIssueOrder : Obligations.CommandsArePerformedInIssueOrder := run_commands_registers
end

section
/-! A field written and read back, a byte as a field, and a command repeated (20_memory.md R42, R45). -/

namespace Sys2Proof.Machine

open Sys2Proof

/-! ### Laws of the datapath (R135, R140) -/

/-- Writing a field discards what a write of the same field left in it. -/
theorem insert_insert_same {s n : Nat} (h : ValidField s n) (d v v' : Word) :
    insert (insert d v s n) v' s n = insert d v' s n := by
  apply BitVec.eq_of_getLsbD_eq
  intro i hi
  rw [getLsbD_insert h _ _ hi, getLsbD_insert h _ _ hi, getLsbD_insert h _ _ hi]
  split <;> rfl

/-- The field read back is the low `n` bits of the value written: bit `i` of the field is word bit `fieldShift s n + i`. -/
theorem extract_insert_same {s n : Nat} (h : ValidField s n) (d v : Word) :
    extract (insert d v s n) s n = v &&& bitmask n := by
  obtain ⟨-, hs⟩ := id h
  apply BitVec.eq_of_getLsbD_eq
  intro i hi
  rw [getLsbD_extract h, BitVec.getLsbD_and, getLsbD_bitmask (by omega), Bool.and_comm]
  by_cases hin : i < n
  · rw [getLsbD_insert h d v (by omega), if_pos ⟨Nat.le_add_right _ _, Nat.add_lt_add_left hin _⟩, fieldShift,
      Nat.add_sub_cancel_left]
  · simp [hin]

/-- Byte `k` is the field of 8 bits at position `8 * k`: both are read from word bit `56 - 8 * k` up. -/
theorem setWidth_byteOf_eq_extract {k : Nat} (hk : k ≤ 7) (d : Word) :
    (byteOf d k).setWidth 64 = extract d (8 * k) 8 := by
  have hshift : 64 - 8 * k - 8 = 56 - 8 * k := by omega
  apply BitVec.eq_of_getLsbD_eq
  intro i hi
  rw [getLsbD_extract ⟨by decide, by omega⟩, hshift, BitVec.getLsbD_setWidth, getLsbD_byteOf, decide_eq_true hi,
    Bool.true_and]

/-! ### A well-formed command at the port -/

/-- A step runs the decoded instruction on the buses that its move drives (R67, R150). -/
theorem step_wellFormed {s : State} {t : Transaction} {rest : List HostMove} {i : Instr} (h : s.host = .command t :: rest)
    (hr : s.rst = false) (hd : decode t.cmd = .wellFormed i) : step s = exec i ((s.advance rest).drive t) :=
  (step_command h hr).trans (runWord_wellFormed hd _)

/-! ### The values a repeated command writes -/

/-- The value a command leaves in `WORD` it leaves there again (R45). -/
theorem wordOf_repeat {i : Instr} (hc : rangeCheck i = none) (s : State) (r : Word) (st : StatusWord) :
    wordOf { s with word := wordOf s i, r := r, status := st } i = wordOf s i := by
  cases i with
  | setbf pos len => exact insert_insert_same (setbfCheck_none.mp hc) s.word s.b s.b
  | bitmask len => rfl
  | getbf order src pos len => rfl
  | nthbyte src n => rfl

/-- The value a command writes to `R` it writes again: a command that writes `R` changes no source (R45). -/
theorem resultOf_repeat (i : Instr) (s : State) (st : StatusWord) :
    resultOf { s with word := wordOf s i, r := resultOf s i, status := st } i = resultOf s i := by
  cases i with
  | bitmask len => rfl
  | getbf order src pos len => cases src <;> rfl
  | setbf pos len => rfl
  | nthbyte src n => cases src <;> rfl

end Sys2Proof.Machine

open Sys2Proof.Machine

/-- Settles O29: both commands pass their checks and write the same byte. -/
theorem nthbyteAgreesWithGetbf : Obligations.NthbyteAgreesWithGetbf := by
  intro src k s hk
  have hvalid : ValidField (8 * k) 8 := ⟨by decide, by omega⟩
  rw [exec_of_check_none (i := .nthbyte src k) (nthbyteCheck_none.mpr hk),
    exec_getbf_of_validField (order := .normal) hvalid nofun]
  simp only [wordOf, resultOf, getBitField, setWidth_byteOf_eq_extract hk]

/-- Settles O37: a rejected command is rejected again, and an accepted one writes the values it wrote. -/
theorem repeatedCommandGivesTheSameWordAndResult : Obligations.RepeatedCommandGivesTheSameWordAndResult := by
  intro i s
  rcases hc : rangeCheck i with _ | e
  · exact ⟨_, _, exec_of_check_none hc s, exec_of_check_none hc _, wordOf_repeat hc s _ _, resultOf_repeat i s _⟩
  · exact ⟨_, _, exec_of_check_some hc s, exec_of_check_some hc _, rfl, rfl⟩

/-- Settles O38: the second command reads the word the first one merged. -/
theorem writtenFieldIsReadBack : Obligations.WrittenFieldIsReadBack := by
  intro s t t' rest pos len hr hh hd hd' h
  obtain ⟨v, hv, hvr, hvh, hvw⟩ : ∃ v, step s = .next v ∧ v.rst = false ∧ v.host = .command t' :: rest ∧
      v.word = insert s.word t.b pos len :=
    ⟨_, (step_wellFormed hh hr hd).trans (exec_setbf_of_validField h _), hr, rfl, rfl⟩
  have hsecond := (step_wellFormed hvh hvr hd').trans (exec_getbf_of_validField (order := .normal) h nofun .word _)
  refine ⟨_, (run_succ 1 hv).trans (run_succ 0 hsecond), hvw, ?_, rfl⟩
  rw [← extract_insert_same h s.word t.b, ← hvw]
  rfl
end

section
/-! The eight fields of a command word against an instruction's, and the decoder and the encoder as the two directions of that relation (30_encoding.md R61 to R67). -/

namespace Sys2Proof.Machine

open Sys2Proof Sys2Proof.Laws

/-- The word has the instruction's fields, and its reserved bits are zero (R64). -/
def HoldsFields (w : Cmd) (i : Instr) : Prop :=
  (slice w 3 0, slice w 4 4, slice w 5 5, slice w 14 8, slice w 22 16) = fieldsOf i ∧
    slice w 7 6 = 0 ∧ slice w 15 15 = 0 ∧ slice w 31 23 = 0

/-- The row of the opcode map an instruction belongs to (R63). -/
def opcodeOf : Instr → Opcode
  | .bitmask _ => .bitmask
  | .getbf _ _ _ _ => .getbf
  | .setbf _ _ => .setbf
  | .nthbyte _ _ => .nthbyte

@[simp] theorem opcodeOf_operands (op : Opcode) (w : Cmd) : opcodeOf (op.operands w) = op := by cases op <;> rfl

theorem opNumber_injective : ∀ {op op' : Opcode}, opNumber op = opNumber op' → op = op' := by
  rintro (_ | _ | _ | _) (_ | _ | _ | _) <;> simp [opNumber]

/-- The bit of `SRC` is the number of the source it selects. -/
theorem slice_eq_srcNumber {w : Cmd} {src : Source} :
    slice w 5 5 = srcNumber src ↔ Source.ofBit (srcField w) = src := by
  have hlt : slice w 5 5 < 2 := slice_lt w 5 5
  rw [srcField_eq_slice]
  cases src with
  | busA => simp [Source.ofBit, srcNumber]; omega
  | word => simp [Source.ofBit, srcNumber]

/-- The bit of `SW` is the number of the byte order it selects. -/
theorem slice_eq_swNumber {w : Cmd} {order : ByteOrder} :
    slice w 4 4 = swNumber order ↔ ByteOrder.ofBit (swField w) = order := by
  have hlt : slice w 4 4 < 2 := slice_lt w 4 4
  rw [swField_eq_slice]
  cases order with
  | normal => simp [ByteOrder.ofBit, swNumber]; omega
  | byteSwapped => simp [ByteOrder.ofBit, swNumber]

/-- A word has an instruction's fields exactly when it is a well-formed word of its row with its operands. -/
theorem holdsFields_iff {w : Cmd} {i : Instr} : HoldsFields w i ↔
    slice w 3 0 = opNumber (opcodeOf i) ∧ ¬ breaksReserved w ∧ (opcodeOf i).operands w = i := by
  cases i with
  | bitmask len =>
    simp only [HoldsFields, fieldsOf, Prod.mk.injEq, breaksReserved, opcodeOf, opNumber, Opcode.operands,
      lenField_eq_slice, Instr.bitmask.injEq]
    omega
  | getbf order src pos len =>
    simp only [HoldsFields, fieldsOf, Prod.mk.injEq, breaksReserved, opcodeOf, opNumber, Opcode.operands,
      lenField_eq_slice, posField_eq_slice, Instr.getbf.injEq, ← slice_eq_srcNumber, ← slice_eq_swNumber]
    omega
  | setbf pos len =>
    simp only [HoldsFields, fieldsOf, Prod.mk.injEq, breaksReserved, opcodeOf, opNumber, Opcode.operands,
      lenField_eq_slice, posField_eq_slice, Instr.setbf.injEq]
    omega
  | nthbyte src n =>
    simp only [HoldsFields, fieldsOf, Prod.mk.injEq, breaksReserved, opcodeOf, opNumber, Opcode.operands,
      posField_eq_slice, Instr.nthbyte.injEq, ← slice_eq_srcNumber]
    omega

/-! ### The three classes of R67 by fields -/

theorem decode_eq_wellFormed_iff {w : Cmd} {i : Instr} : decode w = .wellFormed i ↔ HoldsFields w i := by
  rw [holdsFields_iff]
  constructor
  · intro h
    obtain ⟨-, hd⟩ | ⟨op, -, -, hd⟩ | ⟨op, hop, hb, hd⟩ := decode_cases w <;> rw [hd] at h <;> cases h
    rw [opcodeOf_operands]
    exact ⟨hop, hb, rfl⟩
  · rintro ⟨hop, hb, hi⟩
    rw [decode_of_not_breaksReserved hop hb, hi]

theorem decode_eq_illegal_iff {w : Cmd} : decode w = .illegal ↔ hasCause w .illegalOp := by
  refine ⟨fun h => ?_, decode_of_illegalOp⟩
  obtain ⟨hill, -⟩ | ⟨op, -, -, hd⟩ | ⟨op, -, -, hd⟩ := decode_cases w
  · exact hill
  · rw [hd] at h; cases h
  · rw [hd] at h; cases h

/-- `OP` is assigned exactly when it is the number of a row (R63). -/
theorem exists_opNumber_iff {w : Cmd} : (∃ op, slice w 3 0 = opNumber op) ↔ 1 ≤ slice w 3 0 ∧ slice w 3 0 ≤ 4 := by
  constructor
  · rintro ⟨op, hop⟩
    rw [hop]; cases op <;> decide
  · rintro ⟨h1, h4⟩
    interval_cases h : slice w 3 0
    exacts [⟨.bitmask, rfl⟩, ⟨.getbf, rfl⟩, ⟨.setbf, rfl⟩, ⟨.nthbyte, rfl⟩]

theorem decode_eq_reserved_iff {w : Cmd} :
    decode w = .reserved ↔ (1 ≤ slice w 3 0 ∧ slice w 3 0 ≤ 4) ∧ breaksReserved w := by
  rw [← exists_opNumber_iff]
  constructor
  · intro h
    obtain ⟨-, hd⟩ | ⟨op, hop, hb, -⟩ | ⟨op, -, -, hd⟩ := decode_cases w
    · rw [hd] at h; cases h
    · exact ⟨⟨op, hop⟩, hb⟩
    · rw [hd] at h; cases h
  · rintro ⟨⟨op, hop⟩, hb⟩
    exact decode_of_breaksReserved hop hb

theorem decode_of_matches {w : Cmd} {op : Opcode} (h : w &&& op.mask = op.pattern) :
    decode w = .wellFormed (op.operands w) := by
  obtain ⟨hop, hb⟩ := (matches_iff_not_breaksReserved w op).mp h
  exact decode_of_not_breaksReserved hop hb

/-- A word that decodes to an instruction matches that instruction's row (R65). -/
theorem matches_of_decode {w : Cmd} {i : Instr} (h : decode w = .wellFormed i) :
    w &&& (opcodeOf i).mask = (opcodeOf i).pattern := by
  obtain ⟨hop, hb, -⟩ := holdsFields_iff.mp (decode_eq_wellFormed_iff.mp h)
  exact (matches_iff_not_breaksReserved w _).mpr ⟨hop, hb⟩

/-! ### The encoder -/

theorem holdsFields_encode {i : Instr} (h : i.wellFormed = true) : HoldsFields (encode i) i := by
  cases i with
  | bitmask len => exact EncodedFields.bitmask len h
  | getbf order src pos len => exact EncodedFields.getbf order src pos len h
  | setbf pos len => exact EncodedFields.setbf pos len h
  | nthbyte src n => exact EncodedFields.nthbyte src n h

/-- A word with an instruction's fields is the sum of R66. -/
theorem HoldsFields.toNat_eq {w : Cmd} {i : Instr} (h : HoldsFields w i) : w.toNat =
    (fieldsOf i).1 + (fieldsOf i).2.1 * 2 ^ 4 + (fieldsOf i).2.2.1 * 2 ^ 5 + (fieldsOf i).2.2.2.1 * 2 ^ 8 +
      (fieldsOf i).2.2.2.2 * 2 ^ 16 := by
  obtain ⟨hf, h6, h15, h23⟩ := h
  rw [← hf, toNat_eq_fields, h6, h15, h23]
  simp only [Nat.zero_mul, Nat.add_zero]

theorem HoldsFields.wellFormed {w : Cmd} {i : Instr} (h : HoldsFields w i) : i.wellFormed = true := by
  obtain ⟨-, -, hi⟩ := holdsFields_iff.mp h
  have hpos : slice w 14 8 < 128 := slice_lt w 14 8
  have hlen : slice w 22 16 < 128 := slice_lt w 22 16
  rw [← hi]
  cases opcodeOf i <;> simp [Opcode.operands, Instr.wellFormed, fitsField, lenField_eq_slice, posField_eq_slice] <;> omega

/-- The eight fields of a word leave nothing of it open. -/
theorem HoldsFields.encode_eq {w : Cmd} {i : Instr} (h : HoldsFields w i) : encode i = w :=
  BitVec.eq_of_toNat_eq ((holdsFields_encode h.wellFormed).toNat_eq.trans h.toNat_eq.symm)

theorem decode_encode {i : Instr} (h : i.wellFormed = true) : decode (encode i) = .wellFormed i :=
  decode_eq_wellFormed_iff.mpr (holdsFields_encode h)

/-- The reserved bits of every layout: RSV2, RSV1 and RSV0 (R61). -/
theorem reservedBits_eq_zero_iff (w : Cmd) :
    w &&& 0xFF8080C0#32 = 0#32 ↔ slice w 7 6 = 0 ∧ slice w 15 15 = 0 ∧ slice w 31 23 = 0 := by
  rw [and_eq_iff_bits, slice_eq_iff _ _ _ (by decide), slice_eq_iff _ _ _ (by decide), slice_eq_iff _ _ _ (by decide)]
  simp [Nat.forall_lt_succ_right, Nat.le_one_iff_eq_zero_or_eq_one, or_imp, forall_and, and_assoc]

end Sys2Proof.Machine

open Sys2Proof Sys2Proof.Machine Sys2Proof.Laws

/-- Settles O3: the word of a well-formed instruction has its fields. -/
theorem decodeOfEncodeIsTheInstruction : Obligations.DecodeOfEncodeIsTheInstruction := fun _ h => decode_encode h

/-- Settles O4: a word is determined by the fields that decoding reads and the bits it requires to be zero. -/
theorem encodeOfDecodeIsTheWord : Obligations.EncodeOfDecodeIsTheWord := by
  intro w i h
  have hf := decode_eq_wellFormed_iff.mp h
  exact ⟨hf.wellFormed, hf.encode_eq⟩

/-- Settles O2: the formula is the sum of the instruction's fields. -/
theorem encodingFollowsTheFormula : Obligations.EncodingFollowsTheFormula := by
  refine ⟨fun i h => ?_, fun i h => ?_, by decide⟩
  · rw [(holdsFields_encode h).toNat_eq]
    cases i with
    | bitmask len => simp [fieldsOf]
    | getbf order src pos len => cases order <;> cases src <;> simp [fieldsOf, swNumber, srcNumber]
    | setbf pos len => simp [fieldsOf]
    | nthbyte src n => cases src <;> simp [fieldsOf, srcNumber]
  · exact (reservedBits_eq_zero_iff _).mpr (holdsFields_encode h).2

/-- Settles O5: matching a row is decoding to an instruction of that row, and the rows differ in `OP`. -/
theorem matchAndMaskDecideTheCommand : Obligations.MatchAndMaskDecideTheCommand := by
  refine ⟨fun w => ⟨?_, ?_, ?_, ?_⟩, fun w op op' h h' => ?_, by decide⟩
  · exact ⟨fun ⟨_, h⟩ => matches_of_decode h, fun h => ⟨_, decode_of_matches (op := .bitmask) h⟩⟩
  · exact ⟨fun ⟨_, _, _, _, h⟩ => matches_of_decode h, fun h => ⟨_, _, _, _, decode_of_matches (op := .getbf) h⟩⟩
  · exact ⟨fun ⟨_, _, h⟩ => matches_of_decode h, fun h => ⟨_, _, decode_of_matches (op := .setbf) h⟩⟩
  · exact ⟨fun ⟨_, _, h⟩ => matches_of_decode h, fun h => ⟨_, _, decode_of_matches (op := .nthbyte) h⟩⟩
  · rw [matches_iff_not_breaksReserved] at h h'
    exact opNumber_injective (h.1.symm.trans h'.1)

/-- Settles O6: the classes by their fields, and the operands of a well-formed word. -/
theorem decodeSortsWordsByTheirFields : Obligations.DecodeSortsWordsByTheirFields := by
  refine fun w => ⟨decode_eq_illegal_iff, decode_eq_reserved_iff, fun i h => ?_⟩
  have hf := (decode_eq_wellFormed_iff.mp h).1
  cases i with
  | bitmask len =>
    simp only [fieldsOf, Prod.mk.injEq] at hf
    omega
  | getbf order src pos len =>
    simp only [fieldsOf, Prod.mk.injEq] at hf
    obtain ⟨hop, hsw, hsrc, hpos, hlen⟩ := hf
    refine ⟨hop, ?_, ?_, hpos.symm, hlen.symm⟩
    · rw [hsw]; cases order <;> decide
    · rw [hsrc]; cases src <;> decide
  | setbf pos len =>
    simp only [fieldsOf, Prod.mk.injEq] at hf
    omega
  | nthbyte src n =>
    simp only [fieldsOf, Prod.mk.injEq] at hf
    obtain ⟨hop, -, hsrc, hn, -⟩ := hf
    refine ⟨hop, ?_, hn.symm⟩
    rw [hsrc]; cases src <;> decide

/-- Settles O1: the decoder evaluated on each word. -/
theorem exampleWordsDecode : Obligations.ExampleWordsDecode := by
  unfold Obligations.ExampleWordsDecode
  decide
end

section
/-! The assembler on the lines the disassembler prints and on every other line (30_encoding.md R69 to R71): lines are read operand by operand, and each form of a line gives one kind of word. -/

namespace Sys2Proof.Machine

open Sys2Proof Sys2Proof.Machine.Assembler Sys2Proof.Machine.Disassembler

/-! ### From a printed line to its tokens -/

/-- The characters are one run, and it reads as the token. -/
def ReadsAs (cs : List Char) (t : Token) : Prop := isRun cs = true ∧ cs ≠ [] ∧ wordToken cs = some t

theorem readsAs_immediate {n : Nat} (h : n < 1000) : ReadsAs (immediate n) (.imm n) := immediate_spec n h

theorem readsAs_sourceText (src : Source) : ReadsAs (sourceText src) (.name (sourceText src)) := by
  cases src <;> exact ⟨rfl, nofun, rfl⟩

theorem readsAs_wordNumeral (w : Cmd) : ReadsAs ('0' :: 'x' :: hexDigits w.toNat 8) (.hex w.toNat) :=
  ⟨(wordNumeral_spec w).1, nofun, (wordNumeral_spec w).2⟩

/-- A space before the rest of a line is no token. -/
theorem tokens_space {cs : List Char} {ts : List Token} (h : tokens cs [] = some ts) :
    tokens (' ' :: cs) [] = some ts :=
  tokens_mark (marks := []) (by decide) (by decide) rfl h

/-- A mnemonic or directive and the space after it, before the rest of a line. -/
theorem tokens_runSpace {run cs : List Char} {t : Token} {ts : List Token} (hr : ReadsAs run t)
    (h : tokens cs [] = some ts) : tokens (run ++ ' ' :: cs) [] = some (t :: ts) :=
  tokens_runMark hr.1 hr.2.1 hr.2.2 (marks := []) (by decide) (by decide) rfl h

/-- Operands parted by a comma and a space are their tokens parted by commas. -/
theorem tokens_listOf {x : List Char} {t : Token} {xs : List (List Char)} {ts : List Token} (hx : ReadsAs x t)
    (hxs : List.Forall₂ ReadsAs xs ts) : tokens (listOf (x :: xs)) [] = some ((t :: ts).intersperse .comma) := by
  induction hxs generalizing x t with
  | nil => exact tokens_lastRun hx.1 hx.2.1 hx.2.2
  | cons hy _ ih =>
    exact tokens_runMark hx.1 hx.2.1 hx.2.2 (marks := [.comma]) (by decide) (by decide) rfl (tokens_space (ih hy))

/-- A mnemonic, a space and its operands. -/
theorem tokens_command {m x : List Char} {t : Token} {xs : List (List Char)} {ts : List Token}
    (hm : ReadsAs m (.name m)) (hx : ReadsAs x t) (hxs : List.Forall₂ ReadsAs xs ts) :
    tokens (m ++ ' ' :: listOf (x :: xs)) [] = some (.name m :: (t :: ts).intersperse .comma) :=
  tokens_runSpace hm (tokens_listOf hx hxs)

/-! ### The printed lines assemble -/

theorem assemble_of_tokens {line : List Char} {ts : List Token} (h : tokens line [] = some ts) :
    assemble line = assembleTokens ts := by
  rw [assemble, h]

/-- The line printed for an instruction is read as that instruction, with no bus annotated. -/
theorem assemble_instrText {i : Instr} (h : ∀ n ∈ Instr.immediates i, n < 1000) :
    assemble (instrText i) = (checked i none none).map some := by
  cases i with
  | bitmask len =>
    have hlen := readsAs_immediate (h len (by simp [Instr.immediates]))
    exact assemble_of_tokens (tokens_command (m := "BITMASK".toList) ⟨rfl, nofun, rfl⟩ hlen .nil)
  | getbf order src pos len =>
    have hpos := readsAs_immediate (h pos (by simp [Instr.immediates]))
    have hlen := readsAs_immediate (h len (by simp [Instr.immediates]))
    have hsrc := readsAs_sourceText src
    cases order with
    | normal =>
      refine (assemble_of_tokens (tokens_command (m := "GETBF".toList) ⟨rfl, nofun, rfl⟩ hsrc
        (.cons hpos (.cons hlen .nil)))).trans ?_
      cases src <;> rfl
    | byteSwapped =>
      refine (assemble_of_tokens (tokens_command (m := "GETBF.SW".toList) ⟨rfl, nofun, rfl⟩ hsrc
        (.cons hpos (.cons hlen .nil)))).trans ?_
      cases src <;> rfl
  | setbf pos len =>
    have hpos := readsAs_immediate (h pos (by simp [Instr.immediates]))
    have hlen := readsAs_immediate (h len (by simp [Instr.immediates]))
    exact assemble_of_tokens (tokens_command (m := "SETBF".toList) ⟨rfl, nofun, rfl⟩ hpos (.cons hlen .nil))
  | nthbyte src n =>
    have hn := readsAs_immediate (h n (by simp [Instr.immediates]))
    refine (assemble_of_tokens (tokens_command (m := "NTHBYTE".toList) ⟨rfl, nofun, rfl⟩ (readsAs_sourceText src)
      (.cons hn .nil))).trans ?_
    cases src <;> rfl

/-- A `.word` line is read as its word. -/
theorem assemble_wordText (w : Cmd) : assemble (wordText w) = .ok (some { cmd := w, a := none, b := none }) := by
  have htokens : tokens (wordText w) [] = some [.name ".word".toList, .hex w.toNat] :=
    tokens_command (m := ".word".toList) ⟨rfl, nofun, rfl⟩ (readsAs_wordNumeral w) .nil
  have hsplit : split [.name ".word".toList, .hex w.toNat] = ([.name ".word".toList, .hex w.toNat], []) := rfl
  have hbody : body none [.name ".word".toList, .hex w.toNat] = some (.inr w) := by
    rw [body, rawWord, if_pos ⟨rfl, w.isLt⟩, BitVec.ofNat_toNat, BitVec.setWidth_eq]
  rw [assemble_of_tokens htokens, assembleTokens, hsplit]
  simp only [annotation, hbody]

theorem wellFormed_iff_immediates {i : Instr} : i.wellFormed = true ↔ ∀ n ∈ Instr.immediates i, n ≤ 127 := by
  cases i <;> simp [Instr.wellFormed, Instr.immediates, fitsField]

/-! ### What an accepted line can be -/

theorem checked_map_eq_ok {i : Instr} {a b : Option Word} {l : AsmLine} (h : (checked i a b).map some = .ok (some l)) :
    i.wellFormed = true ∧ l.cmd = encode i := by
  unfold checked at h
  split at h <;> cases h
  exact ⟨‹_›, rfl⟩

theorem rawWord_eq_inr {m : List Char} {n : Nat} {w : Cmd} (h : rawWord m n = some (.inr w)) :
    m = ".word".toList ∧ w.toNat = n := by
  unfold rawWord at h
  split at h <;> cases h
  next hm => exact ⟨hm.1, Nat.mod_eq_of_lt hm.2⟩

theorem noOperand_ne_inr (m : List Char) (b : Option Word) (w : Cmd) : noOperand m b ≠ some (.inr w) := by
  unfold noOperand
  split_ifs <;> simp [pseudo]

theorem oneImmediate_ne_inr (m : List Char) (x : Nat) (w : Cmd) : oneImmediate m x ≠ some (.inr w) := by
  unfold oneImmediate
  split_ifs <;> simp [command, pseudo]

theorem twoImmediates_ne_inr (m : List Char) (x y : Nat) (w : Cmd) : twoImmediates m x y ≠ some (.inr w) := by
  unfold twoImmediates
  split_ifs <;> simp [command, pseudo]

theorem sourceImmediate_ne_inr (m : List Char) (src : Source) (x : Nat) (w : Cmd) :
    sourceImmediate m src x ≠ some (.inr w) := by
  unfold sourceImmediate
  split_ifs <;> simp [command, pseudo]

theorem sourceImmediates_ne_inr (m : List Char) (src : Source) (x y : Nat) (w : Cmd) :
    sourceImmediates m src x y ≠ some (.inr w) := by
  unfold sourceImmediates
  split_ifs <;> simp [command]

/-- Only `.word` and its numeral give a raw word. -/
theorem body_eq_inr {b : Option Word} {ts : List Token} {w : Cmd} (h : body b ts = some (.inr w)) :
    ts = [.name ".word".toList, .hex w.toNat] := by
  unfold body at h
  split at h
  · exact absurd h (noOperand_ne_inr _ _ _)
  · obtain ⟨rfl, rfl⟩ := rawWord_eq_inr h; rfl
  · exact absurd h (oneImmediate_ne_inr _ _ _)
  · exact absurd h (twoImmediates_ne_inr _ _ _ _)
  · split at h
    · exact absurd h (sourceImmediate_ne_inr _ _ _ _)
    · cases h
  · split at h
    · exact absurd h (sourceImmediates_ne_inr _ _ _ _ _)
    · cases h
  · cases h

/-- A line that is a command is one whose immediates fit, encoded, or a raw word. -/
theorem assembleTokens_cases {ts : List Token} {l : AsmLine} (h : assembleTokens ts = .ok (some l)) :
    (∃ i, i.wellFormed = true ∧ l.cmd = encode i) ∨
    (∃ rest, ts = .name ".word".toList :: .hex l.cmd.toNat :: rest) := by
  unfold assembleTokens at h
  split at h
  · cases h
  next front back _ hsplit =>
    have hts : front ++ back = ts := by
      obtain ⟨rfl, rfl⟩ := Prod.mk.inj hsplit
      exact List.takeWhile_append_dropWhile
    split at h
    · cases h
    · split at h
      · cases h
      next w hbody =>
        cases h
        rw [← hts, body_eq_inr hbody]
        exact .inr ⟨back, rfl⟩
      next i _ => exact .inl ⟨i, checked_map_eq_ok h⟩
      next p _ =>
        split at h
        · cases h
        · exact .inl ⟨Pseudo.instr p, checked_map_eq_ok h⟩

end Sys2Proof.Machine

open Sys2Proof Sys2Proof.Machine

/-- Settles O54: the printed line is read back, and its immediates fit exactly when the instruction is well-formed. -/
theorem assemblerChecksOnlyTheFieldWidth : Obligations.AssemblerChecksOnlyTheFieldWidth := by
  intro i h
  simp only [assemble_instrText h, ← wellFormed_iff_immediates, Assembler.checked]
  split <;> rfl

/-- Settles O10: a word prints as its instruction, whose immediates fit, or as `.word`. -/
theorem disassembledTextAssemblesBack : Obligations.DisassembledTextAssemblesBack := by
  intro w
  rcases hd : decode w with _ | _ | i
  · rw [Disassembler.disassemble, hd]; exact assemble_wordText w
  · rw [Disassembler.disassemble, hd]; exact assemble_wordText w
  · obtain ⟨hwf, rfl⟩ := encodeOfDecodeIsTheWord w i hd
    have himm := wellFormed_iff_immediates.mp hwf
    rw [Disassembler.disassemble, hd]
    have hlt : ∀ n ∈ Instr.immediates i, n < 1000 := fun n hn => (himm n hn).trans_lt (by decide)
    exact (assemblerChecksOnlyTheFieldWidth i hlt).trans (if_pos himm)

/-- Settles O55: a line that is no `.word` line is an instruction whose immediates fit, which its word decodes to. -/
theorem reservedBitsAreOnlyWrittenAsRawWords : Obligations.ReservedBitsAreOnlyWrittenAsRawWords := by
  intro line l h
  rcases htokens : Assembler.tokens line [] with _ | ts
  · rw [Assembler.assemble, htokens] at h; cases h
  · rw [assemble_of_tokens htokens] at h
    obtain ⟨i, hwf, hcmd⟩ | ⟨rest, rfl⟩ := assembleTokens_cases h
    · exact .inl ⟨i, hcmd ▸ decode_encode hwf, hwf⟩
    · exact .inr ⟨rest, htokens⟩

/-- Settles O9: the assembler and the disassembler evaluated on each line and word. -/
theorem assemblerAndDisassemblerExamples : Obligations.AssemblerAndDisassemblerExamples := by
  exact ⟨rfl, rfl, rfl, rfl, rfl, rfl, rfl, rfl, rfl, rfl, rfl, rfl, rfl, rfl, rfl, rfl, rfl, rfl⟩
end

section
/-! The pseudo-instructions (30_encoding.md R72): the formula of R66 as a sum of words, and the effect of each expansion on the machine's step. -/

namespace Sys2Proof.Machine

open Sys2Proof Sys2Proof.Laws

/-! ### The words -/

/-- "The fields of each expression do not overlap, so `+` equals bitwise OR" (R72), as a sum of words. -/
theorem encodeFields_eq_add {op sw src pos len : Nat} (ho : op < 16) (hw : sw < 2) (hs : src < 2) (hp : pos ≤ 127)
    (hl : len ≤ 127) :
    encodeFields (BitVec.ofNat 32 op) (BitVec.ofNat 32 sw) (BitVec.ofNat 32 src) pos len =
      BitVec.ofNat 32 op + (BitVec.ofNat 32 sw <<< 4) + (BitVec.ofNat 32 len <<< 16) + (BitVec.ofNat 32 src <<< 5) +
        (BitVec.ofNat 32 pos <<< 8) := by
  apply BitVec.eq_of_toNat_eq
  rw [toNat_encodeFields ho hw hs (by omega) (by omega)]
  simp only [BitVec.toNat_add, BitVec.toNat_shiftLeft, BitVec.toNat_ofNat, Nat.shiftLeft_eq]
  omega

theorem encode_getbf_eq_add (src : Source) {pos len : Nat} (hp : pos ≤ 127) (hl : len ≤ 127) :
    encode (.getbf .normal src pos len) =
      2#32 + (BitVec.ofNat 32 len <<< 16) + (src.bit <<< 5) + (BitVec.ofNat 32 pos <<< 8) := by
  rw [encode, srcBit_eq]
  exact encodeFields_eq_add (op := 2) (sw := 0) (by decide) (by decide) (srcNumber_lt src) hp hl

theorem encode_setbf_eq_add {pos len : Nat} (hp : pos ≤ 127) (hl : len ≤ 127) :
    encode (.setbf pos len) = 3#32 + (BitVec.ofNat 32 len <<< 16) + (BitVec.ofNat 32 pos <<< 8) := by
  have h := encodeFields_eq_add (op := 3) (sw := 0) (src := 0) (by decide) (by decide) (by decide) hp hl
  rw [encode]
  simpa using h

theorem encode_nthbyte_eq_add (src : Source) {n : Nat} (hn : n ≤ 127) :
    encode (.nthbyte src n) = 4#32 + (src.bit <<< 5) + (BitVec.ofNat 32 n <<< 8) := by
  rw [encode, srcBit_eq]
  exact encodeFields_eq_add (op := 4) (sw := 0) (len := 0) (by decide) (by decide) (srcNumber_lt src) hn (by decide)

/-! ### The values the expansions write -/

theorem extract_word (d : Word) : extract d 0 64 = d := by
  apply BitVec.eq_of_getLsbD_eq
  intro i hi
  rw [getLsbD_extract ⟨by decide, by decide⟩]
  simp [hi]

theorem insert_word (d v : Word) : insert d v 0 64 = v := by
  apply BitVec.eq_of_getLsbD_eq
  intro i hi
  rw [getLsbD_insert ⟨by decide, by decide⟩ d v hi]
  simp [hi, fieldShift]

/-- A field of one bit is that bit (R72, `GETBIT`). -/
theorem extract_bit {p : Nat} (hp : p ≤ 63) (d : Word) : extract d p 1 = if posBit d p then 1#64 else 0#64 := by
  have hshift : 64 - p - 1 = 63 - p := by omega
  apply BitVec.eq_of_getLsbD_eq
  intro i hi
  rw [getLsbD_extract ⟨by decide, by omega⟩, hshift]
  by_cases h0 : i = 0
  · subst h0
    cases hb : posBit d p <;> simpa [posBit] using hb
  · have hlt : ¬ i < 1 := by omega
    cases posBit d p <;> simp [h0]

/-- Writing a field of one bit changes that position alone (R72, `SETBIT` and `CLRBIT`). -/
theorem posBit_insert_bit {p q : Nat} (hp : p ≤ 63) (hq : q < 64) (d v : Word) :
    posBit (insert d v p 1) q = if q = p then v.getLsbD 0 else posBit d q := by
  rw [posBit_insert ⟨by decide, by omega⟩ d v hq]
  by_cases h : q = p
  · simp [h]
  · rw [if_neg h, if_neg (by omega)]

/-! ### The expansion at the port -/

/-- The step that runs an expansion whose immediates fit and pass their checks. -/
theorem step_pseudo {s : State} {p : Pseudo} {a b : Word} {rest : List HostMove} (hr : s.rst = false)
    (h : s.host = .command (Pseudo.transaction p a b) :: rest) (hwf : (Pseudo.instr p).wellFormed = true)
    (hc : rangeCheck (Pseudo.instr p) = none) :
    step s = .next { (s.advance rest).drive (Pseudo.transaction p a b) with
      word := wordOf ((s.advance rest).drive (Pseudo.transaction p a b)) (Pseudo.instr p)
      r := resultOf ((s.advance rest).drive (Pseudo.transaction p a b)) (Pseudo.instr p)
      status := acceptedStatus s.status } :=
  (step_wellFormed h hr (decode_encode hwf)).trans (exec_of_check_none hc _)

/-- A valid field fits its two 7-bit fields. -/
theorem setbf_wellFormed_of_validField {pos len : Nat} (h : ValidField pos len) :
    (Instr.setbf pos len).wellFormed = true := by
  obtain ⟨-, hs⟩ := h
  simp [Instr.wellFormed, fitsField]; omega

theorem getbf_wellFormed_of_validField {pos len : Nat} (h : ValidField pos len) (order : ByteOrder) (src : Source) :
    (Instr.getbf order src pos len).wellFormed = true := setbf_wellFormed_of_validField h

/-- The step that runs a pseudo-instruction for `SETBF`: `WORD` takes the value its transaction drives on bus `b`. -/
theorem step_pseudo_setbf {s : State} {p : Pseudo} {a b : Word} {rest : List HostMove} (hr : s.rst = false)
    (h : s.host = .command (Pseudo.transaction p a b) :: rest) {pos len : Nat} (hi : Pseudo.instr p = .setbf pos len)
    (hf : ValidField pos len) :
    ∃ u, step s = .next u ∧ causeOf u.status = 0#4 ∧ u.word = insert s.word ((Pseudo.value p).getD b) pos len := by
  have hc : rangeCheck (Pseudo.instr p) = none := by rw [hi]; exact setbfCheck_none.mpr hf
  refine ⟨_, step_pseudo hr h (by rw [hi]; exact setbf_wellFormed_of_validField hf) hc, causeOf_acceptedStatus _, ?_⟩
  rw [hi]; rfl

/-- The step that runs a pseudo-instruction for `GETBF`: `R` takes the field of the source. -/
theorem step_pseudo_getbf {s : State} {p : Pseudo} {a b : Word} {rest : List HostMove} (hr : s.rst = false)
    (h : s.host = .command (Pseudo.transaction p a b) :: rest) {src : Source} {pos len : Nat}
    (hi : Pseudo.instr p = .getbf .normal src pos len) (hf : ValidField pos len) :
    ∃ u, step s = .next u ∧ causeOf u.status = 0#4 ∧
      u.r = extract (if src = .busA then a else s.word) pos len := by
  have hc : rangeCheck (Pseudo.instr p) = none := by rw [hi]; exact getbfCheck_none.mpr ⟨hf, nofun⟩
  refine ⟨_, step_pseudo hr h (by rw [hi]; exact getbf_wellFormed_of_validField hf _ _) hc, causeOf_acceptedStatus _, ?_⟩
  rw [hi]; cases src <;> rfl

end Sys2Proof.Machine

open Sys2Proof Sys2Proof.Machine

/-- Settles O8: an expansion passes the checks of its one command, whose value is the row's effect. -/
theorem pseudoInstructionsDoWhatTheirRowsSay : Obligations.PseudoInstructionsDoWhatTheirRowsSay := by
  refine ⟨fun _ => rfl, rfl, rfl, fun src p hp => encode_getbf_eq_add src hp (by decide),
    fun p hp => encode_setbf_eq_add hp (by decide), fun p hp => encode_setbf_eq_add hp (by decide),
    fun p len hp hl => ?_, fun src n hn => encode_nthbyte_eq_add src hn, fun s p a b rest hr hh hp => ?_,
    fun src s => ?_⟩
  · exact (encode_setbf_eq_add hp hl).trans (add_right_comm _ _ _)
  · cases p with
    | ldw v =>
      obtain ⟨u, hu, hcause, hword⟩ := step_pseudo_setbf hr hh (pos := 0) (len := 64) rfl (by decide)
      exact ⟨u, hu, hcause, hword.trans (insert_word _ _)⟩
    | clrw =>
      obtain ⟨u, hu, hcause, hword⟩ := step_pseudo_setbf hr hh (pos := 0) (len := 64) rfl (by decide)
      exact ⟨u, hu, hcause, hword.trans (insert_word _ _)⟩
    | rdw =>
      obtain ⟨u, hu, hcause, hres⟩ := step_pseudo_getbf hr hh rfl (by decide)
      exact ⟨u, hu, hcause, hres.trans (extract_word _)⟩
    | getbit src p =>
      obtain ⟨u, hu, hcause, hres⟩ := step_pseudo_getbf hr hh rfl ⟨le_rfl, Nat.succ_le_succ hp⟩
      exact ⟨u, hu, hcause, hres.trans (extract_bit hp _)⟩
    | setbit p =>
      obtain ⟨u, hu, hcause, hword⟩ := step_pseudo_setbf hr hh rfl ⟨le_rfl, Nat.succ_le_succ hp⟩
      refine ⟨u, hu, hcause, fun q hq => ?_⟩
      rw [hword, posBit_insert_bit hp hq]; simp [Pseudo.value]
    | clrbit p =>
      obtain ⟨u, hu, hcause, hword⟩ := step_pseudo_setbf hr hh rfl ⟨le_rfl, Nat.succ_le_succ hp⟩
      refine ⟨u, hu, hcause, fun q hq => ?_⟩
      rw [hword, posBit_insert_bit hp hq]; simp [Pseudo.value]
    | clrbf p len =>
      obtain ⟨u, hu, hcause, hword⟩ := step_pseudo_setbf hr hh rfl hp
      refine ⟨u, hu, hcause, fun q hq => ?_⟩
      rw [hword, posBit_insert hp _ _ hq, Pseudo.value, Option.getD_some, BitVec.getLsbD_zero]
    | getbyte src n =>
      have hwf : (Pseudo.instr (.getbyte src n)).wellFormed = true := decide_eq_true (hp.trans (by decide))
      refine ⟨_, step_pseudo hr hh hwf (nthbyteCheck_none.mpr hp), causeOf_acceptedStatus _, ?_⟩
      cases src <;> rfl
  · exact ⟨_, exec_getbf_of_validField (order := .normal) (by decide) nofun src s, extract_word _⟩
end

section
/-! What the machine does with words that are no command, with buses a command does not read, and with any move at all (30_encoding.md R62, R64, R67, R68). -/

namespace Sys2Proof.Machine

open Sys2Proof

/-- The checks read the instruction alone, so states that agree in the registers and in what the instruction writes agree in
the registers after it. -/
theorem exec_registers_congr {i : Instr} {s s' : State} (hreg : s.registers = s'.registers)
    (hword : wordOf s i = wordOf s' i) (hr : resultOf s i = resultOf s' i) :
    ∃ u u', exec i s = .next u ∧ exec i s' = .next u' ∧ u.registers = u'.registers := by
  obtain ⟨hw, hres, hst⟩ := State.registers_eq_iff.mp hreg
  rcases hc : rangeCheck i with _ | e
  · refine ⟨_, _, exec_of_check_none hc s, exec_of_check_none hc s', ?_⟩
    exact State.registers_eq_iff.mpr ⟨hword, hr, congrArg acceptedStatus hst⟩
  · exact ⟨_, _, exec_of_check_some hc s, exec_of_check_some hc s', State.registers_eq_iff.mpr ⟨hw, hres, rfl⟩⟩

end Sys2Proof.Machine

open Sys2Proof.Machine

/-- Settles O36: neither value a command writes reads the bus it ignores. -/
theorem unreadBusesHaveNoEffect : Obligations.UnreadBusesHaveNoEffect := by
  intro s x y
  exact ⟨fun _ => exec_registers_congr rfl rfl rfl, fun _ _ _ => exec_registers_congr rfl rfl rfl,
    fun _ _ _ => exec_registers_congr rfl rfl rfl, fun _ _ => exec_registers_congr rfl rfl rfl,
    fun _ => exec_registers_congr rfl rfl rfl, fun _ => exec_registers_congr rfl rfl rfl⟩

/-- Settles O7: both classes end in the shared rejection, with the codes 1 and 2. -/
theorem illegalAndReservedWordsAreRejected : Obligations.IllegalAndReservedWordsAreRejected := by
  intro s t rest hr hh
  exact ⟨fun hd => (step_command hh hr).trans (runWord_illegal hd _),
    fun hd => (step_command hh hr).trans (runWord_reserved hd _)⟩

/-- Settles O33: under `rst` every move has a next state, and on a released unit a command, a reset and a quiet move (or
none, R215; log 8) have one. -/
theorem everyStepAnswersANextState : Obligations.EveryStepAnswersANextState := by
  intro s
  by_cases hr : s.rst = true
  · obtain ⟨u, hu, -⟩ := step_asserted hr
    exact ⟨u, hu⟩
  · have hr' : s.rst = false := by simpa using hr
    obtain ⟨t, rest, hh⟩ | ⟨m, rest, hh, hm⟩ | hq := host_cases s
    · obtain ⟨u, hu, -⟩ := step_command_status hh hr'
      exact ⟨u, hu⟩
    · obtain ⟨u, hu, -⟩ := step_resets hh hm
      exact ⟨u, hu⟩
    · exact ⟨_, step_quiet hr' hq⟩
end

section
/-! The bitmask generator (40_bitmask.md R100 to R103): its masks by word bits and by positions, its laws, and the range of `BITMASK`. -/

namespace Sys2Proof.Machine

open Sys2Proof

/-! ### Masks by word bits and by positions (R100) -/

theorem bitmask_zero : bitmask 0 = 0#64 := by decide

theorem bitmask_full : bitmask 64 = 0xFFFFFFFFFFFFFFFF#64 := by decide

/-- Position `p` is word bit `63 - p` (R10). -/
theorem posBit_bitmask {n p : Nat} (hn : n ≤ 64) (hp : p < 64) : posBit (bitmask n) p = decide (64 - n ≤ p) := by
  have hpos : 63 - p < n ↔ 64 - n ≤ p := by omega
  rw [posBit, getLsbD_bitmask hn, decide_eq_decide]
  exact hpos

theorem getLsbD_not_bitmask {n i : Nat} (hn : n ≤ 64) (hi : i < 64) :
    (~~~(bitmask n)).getLsbD i = decide (n ≤ i) := by
  rw [BitVec.getLsbD_not, getLsbD_bitmask hn, decide_eq_true hi, Bool.true_and, ← decide_not, decide_eq_decide]
  exact Nat.not_lt

/-! ### The laws of R103 -/

/-- Of the numbers below `n + d`, the first `n` are below `n` and the other `d` are not. -/
theorem count_lt (n d : Nat) : Nat.count (· < n) (n + d) = n := by
  have hbelow : Nat.count (· < n) n = n := Nat.count_iff_forall.mpr fun _ h => h
  have habove : Nat.count (fun k => n + k < n) d = 0 := Nat.count_iff_forall_not.mpr fun k _ => by omega
  rw [Nat.count_add, hbelow, habove, Nat.add_zero]

theorem length_setBits_bitmask {n : Nat} (hn : n ≤ 64) :
    ((List.range 64).filter (fun i => (bitmask n).getLsbD i)).length = n := by
  have hwidth : n + (64 - n) = 64 := by omega
  have hcount := count_lt n (64 - n)
  rw [hwidth, Nat.count, List.countP_eq_length_filter] at hcount
  simpa only [getLsbD_bitmask hn] using hcount

/-- The next wider mask: bit `i + 1` is the old bit `i`, and bit 0 is set. -/
theorem bitmask_succ {n : Nat} (hn : n < 64) : bitmask (n + 1) = (bitmask n <<< 1) ||| 1#64 := by
  apply BitVec.eq_of_getLsbD_eq
  intro i hi
  rw [BitVec.getLsbD_or, BitVec.getLsbD_shiftLeft, getLsbD_bitmask hn, getLsbD_bitmask hn.le]
  cases i with
  | zero => simp
  | succ i => simp [hi]

/-- The next narrower mask: bit `i` is the old bit `i + 1`. -/
theorem bitmask_pred {n : Nat} (hn : n ≤ 64) : bitmask (n - 1) = bitmask n >>> 1 := by
  have hbit (i : Nat) : i < n - 1 ↔ 1 + i < n := by omega
  apply BitVec.eq_of_getLsbD_eq
  intro i _
  rw [BitVec.getLsbD_ushiftRight, getLsbD_bitmask (by omega), getLsbD_bitmask hn, decide_eq_decide]
  exact hbit i

/-- The narrower of two masks is their AND. -/
theorem bitmask_and_bitmask {m n : Nat} (hmn : m ≤ n) (hn : n ≤ 64) : bitmask m &&& bitmask n = bitmask m := by
  apply BitVec.eq_of_getLsbD_eq
  intro i _
  rw [BitVec.getLsbD_and, getLsbD_bitmask (hmn.trans hn), getLsbD_bitmask hn, ← Bool.decide_and, decide_eq_decide]
  exact and_iff_left_of_imp fun h => h.trans_le hmn

/-- The mask of a field has ones exactly at the field's positions (R10, R13). -/
theorem posBit_fieldMask {s n p : Nat} (h : ValidField s n) (hp : p < 64) :
    posBit (fieldMask s n) p = decide (s ≤ p ∧ p < s + n) := by
  obtain ⟨-, hs⟩ := id h
  have hpos : (fieldShift s n ≤ 63 - p ∧ 63 - p < fieldShift s n + n) ↔ (s ≤ p ∧ p < s + n) := by
    simp only [fieldShift]; omega
  rw [posBit, getLsbD_fieldMask h, ← Bool.decide_and, decide_eq_decide]
  exact hpos

/-- Moving a mask to its field stays below `2 ^ (64 - s)`, so the shift loses no bit. -/
theorem bitmask_shift_lt {s n : Nat} (h : ValidField s n) : (bitmask n).toNat * 2 ^ fieldShift s n < 2 ^ 64 := by
  obtain ⟨-, hs⟩ := h
  have hsum : n + fieldShift s n ≤ 64 := by simp only [fieldShift]; omega
  calc (bitmask n).toNat * 2 ^ fieldShift s n
      < 2 ^ n * 2 ^ fieldShift s n := by
        rw [toNat_bitmask (by omega)]
        exact Nat.mul_lt_mul_of_pos_right (Nat.sub_one_lt (Nat.two_pow_pos n).ne') (Nat.two_pow_pos _)
    _ = 2 ^ (n + fieldShift s n) := (Nat.pow_add 2 n _).symm
    _ ≤ 2 ^ 64 := Nat.pow_le_pow_right (by decide) hsum

/-! ### The range of `BITMASK` (R102) -/

theorem bitmaskCheck_of_gt {n : Nat} (h : 64 < n) : bitmaskCheck n = some .widthRange := if_pos h

/-- The `STATUS` of a rejected width: `CAUSE = 3` and `STICKY = 1` (R201, R202). -/
theorem rejectedStatus_widthRange : rejectedStatus .widthRange = 0x0103#16 := by decide

end Sys2Proof.Machine

open Sys2Proof.Machine

/-- Settles O13: bit `i` of `bitmask n` is `i < n`, from which each law follows bit by bit. -/
theorem bitmaskLaws : Obligations.BitmaskLaws := by
  refine ⟨fun n hn => ?_, bitmask_zero, bitmask_full, fun s n h => ?_⟩
  · exact ⟨length_setBits_bitmask hn, bitmask_succ, fun _ => bitmask_pred hn, fun _ => getLsbD_not_bitmask hn,
      fun _ hmn => bitmask_and_bitmask hmn hn⟩
  · exact ⟨fun _ => posBit_fieldMask h, bitmask_shift_lt h⟩

/-- Settles O11: the value by word bits, and by positions through `pos p = bit 63 - p`. -/
theorem bitmaskBitByBit : Obligations.BitmaskBitByBit := by
  refine ⟨fun n hn => ?_, bitmask_zero, bitmask_full, by decide⟩
  exact ⟨toNat_bitmask hn, fun i _ => getLsbD_bitmask hn i, fun _ => posBit_bitmask hn⟩

/-- Settles O12: the one check is `n ≤ 64`, and `BITMASK` then writes `R` alone. -/
theorem bitmaskWidthRange : Obligations.BitmaskWidthRange := by
  refine fun n s => ⟨fun hn => ?_, fun hn => ?_⟩
  · rw [exec_of_check_none (i := .bitmask n) (bitmaskCheck_none.mpr hn), acceptedStatus_eq_and]
    rfl
  · rw [exec_of_check_some (i := .bitmask n) (bitmaskCheck_of_gt hn), State.reject, rejectedStatus_widthRange]
end

section
/-! The extractor (41_extract.md R110 to R116): the byte swap by its formula and byte by byte, the laws of the extracted field, and the range checks of `GETBF`. -/

namespace Sys2Proof.Machine

open Sys2Proof

/-! ### The byte swap (R111) -/

theorem orLanes_eq_foldl (v : Word) (m k : Nat) :
    orLanes v m k = (List.range k).foldl (fun acc j => acc ||| byteLane v m j) 0#64 := by
  induction k with
  | zero => rfl
  | succ k ih => rw [orLanes, ih, List.range_succ, List.foldl_concat]

/-- Byte `j` of the value stands at byte `n / 8 - 1 - j` of the result. -/
theorem extractLsb'_byteswap {n j : Nat} (hn : n ≤ 64) (hj : j < n / 8) (v : Word) :
    (byteswap v n).extractLsb' (8 * (n / 8 - 1 - j)) 8 = v.extractLsb' (8 * j) 8 := by
  apply BitVec.eq_of_getLsbD_eq
  intro i hi
  have hin : 8 * (n / 8 - 1 - j) + i < 8 * (n / 8) := by omega
  have hbit : 8 * (n / 8 - 1 - (8 * (n / 8 - 1 - j) + i) / 8) + (8 * (n / 8 - 1 - j) + i) % 8 = 8 * j + i := by omega
  rw [BitVec.getLsbD_extractLsb', BitVec.getLsbD_extractLsb', getLsbD_byteswap v n (by omega), hbit,
    decide_eq_true hin, Bool.true_and]

theorem getLsbD_byteswap_of_le {n i : Nat} (h : n ≤ i) (v : Word) : (byteswap v n).getLsbD i = false := by
  by_cases hi : i < 64
  · have hout : ¬ i < 8 * (n / 8) := by omega
    rw [getLsbD_byteswap v n hi, decide_eq_false hout, Bool.false_and]
  · exact BitVec.getLsbD_of_ge _ _ (by omega)

/-- A value below `2 ^ n` has no bit at or above `n`. -/
theorem getLsbD_of_toNat_lt {v : Word} {n i : Nat} (hv : v.toNat < 2 ^ n) (h : n ≤ i) : v.getLsbD i = false :=
  Nat.testBit_lt_two_pow (hv.trans_le (Nat.pow_le_pow_right (by decide) h))

/-- Mirroring the bytes of the field twice brings every bit back to its place. -/
theorem byteswap_byteswap {v : Word} {n : Nat} (h8 : n % 8 = 0) (hn : n ≤ 64) (hv : v.toNat < 2 ^ n) :
    byteswap (byteswap v n) n = v := by
  apply BitVec.eq_of_getLsbD_eq
  intro i hi
  by_cases hin : i < n
  · have hmirror : 8 * (n / 8 - 1 - i / 8) + i % 8 < 8 * (n / 8) := by omega
    have hback : 8 * (n / 8 - 1 - (8 * (n / 8 - 1 - i / 8) + i % 8) / 8) + (8 * (n / 8 - 1 - i / 8) + i % 8) % 8 = i := by
      omega
    rw [getLsbD_byteswap _ n hi, getLsbD_byteswap v n (by omega), hback, decide_eq_true hmirror,
      decide_eq_true (by omega), Bool.true_and, Bool.true_and]
  · rw [getLsbD_byteswap_of_le (by omega), getLsbD_of_toNat_lt hv (by omega)]

/-- A field of one byte has one lane, which stays where it is. -/
theorem byteswap_one_byte {v : Word} (hv : v.toNat < 2 ^ 8) : byteswap v 8 = v := by
  apply BitVec.eq_of_getLsbD_eq
  intro i hi
  by_cases hin : i < 8
  · have hbit : 8 * (8 / 8 - 1 - i / 8) + i % 8 = i := by omega
    rw [getLsbD_byteswap v 8 hi, hbit, decide_eq_true (by omega), Bool.true_and]
  · rw [getLsbD_byteswap_of_le (by omega), getLsbD_of_toNat_lt hv (by omega)]

/-! ### A field in two parts (R116) -/

/-- The low `n - m` bits of the field are those of its second part, the others those of its first. -/
theorem extract_split {s n m : Nat} (h : ValidField s n) (hm : 1 ≤ m) (hmn : m < n) (d : Word) :
    extract d s n = (extract d s m <<< (n - m)) ||| extract d (s + m) (n - m) := by
  obtain ⟨-, hs⟩ := id h
  have hfirst : ValidField s m := ⟨hm, by omega⟩
  have hsecond : ValidField (s + m) (n - m) := ⟨by omega, by omega⟩
  apply BitVec.eq_of_getLsbD_eq
  intro i hi
  rw [BitVec.getLsbD_or, BitVec.getLsbD_shiftLeft, getLsbD_extract h, getLsbD_extract hfirst, getLsbD_extract hsecond]
  by_cases hlow : i < n - m
  · have hbit : 64 - (s + m) - (n - m) + i = 64 - s - n + i := by omega
    have hin : i < n := by omega
    simp [hlow, hin, hbit]
  · have hbit : 64 - s - m + (i - (n - m)) = 64 - s - n + i := by omega
    have hin : i - (n - m) < m ↔ i < n := by omega
    simp [hi, hlow, hin, hbit]

/-! ### The range checks of `GETBF` (R114) -/

theorem getbfCheck_of_zero (order : ByteOrder) (s : Nat) : getbfCheck order s 0 = some .zeroWidth := rfl

theorem getbfCheck_of_gt {s n : Nat} (hn : n ≠ 0) (h : 64 < s + n) (order : ByteOrder) :
    getbfCheck order s n = some .fieldRange := by
  rw [getbfCheck, if_neg hn, if_pos h]

theorem getbfCheck_of_swapWidth {s n : Nat} (h : ValidField s n) (h8 : n % 8 ≠ 0) :
    getbfCheck .byteSwapped s n = some .swapWidth := by
  obtain ⟨hn, hs⟩ := h
  rw [getbfCheck, if_neg (by omega), if_neg (by omega), if_pos ⟨rfl, h8⟩]

theorem exec_getbf_of_check_some {order : ByteOrder} {pos len : Nat} {e : BfuError}
    (h : getbfCheck order pos len = some e) (src : Source) (s : State) :
    exec (.getbf order src pos len) s = .next { s with status := rejectedStatus e } :=
  exec_of_check_some (i := .getbf order src pos len) h s

/-- The `STATUS` of each rejection by R114: the cause's code in `CAUSE`, and `STICKY = 1` (R201, R202). -/
theorem rejectedStatus_getbf :
    rejectedStatus .zeroWidth = 0x0104#16 ∧ rejectedStatus .fieldRange = 0x0105#16 ∧
    rejectedStatus .swapWidth = 0x0107#16 := by decide

end Sys2Proof.Machine

open Sys2Proof.Machine

/-- Settles O14: the model's `extract` is the formula, and its bits are those of the word from bit `64 - s - n` up. -/
theorem extractBitByBit : Obligations.ExtractBitByBit := by
  intro d s n h
  obtain ⟨hn, -⟩ := id h
  refine ⟨by omega, rfl, fun i hi => ?_, fun i hi => getLsbD_of_toNat_lt (toNat_extract_lt h d) hi,
    fun j => getLsbD_extract_eq_posBit h d⟩
  rw [getLsbD_extract h, decide_eq_true hi, Bool.true_and]

/-- Settles O15: the OR of the lanes is the formula, and the lane that covers a bit holds the mirrored byte. -/
theorem byteswapReversesTheBytes : Obligations.ByteswapReversesTheBytes := by
  refine ⟨fun v n _ _ hn _ => ?_, fun _ => byteswap_one_byte⟩
  exact ⟨orLanes_eq_foldl v (n / 8) (n / 8), fun _ hj => extractLsb'_byteswap hn hj v,
    fun _ hi => getLsbD_byteswap_of_le hi v⟩

/-- Settles O16: on a valid field the command writes `getBitField` of its source to `R` and accepts. -/
theorem getbfReturnsTheField : Obligations.GetbfReturnsTheField := by
  intro order src pos len s h hsw
  rw [exec_getbf_of_validField h hsw, acceptedStatus_eq_and]
  cases order <;> cases src <;> rfl

/-- Settles O17: the checks in their order, the first that applies deciding. -/
theorem getbfRangeChecksInOrder : Obligations.GetbfRangeChecksInOrder := by
  obtain ⟨hzero, hrange, hswap⟩ := rejectedStatus_getbf
  intro order src pos len s
  refine ⟨?_, fun hn h => ?_, fun hn h ho h8 => ?_, fun hn h hsw => ?_⟩
  · rintro rfl
    rw [exec_getbf_of_check_some (getbfCheck_of_zero order pos), hzero]
  · rw [exec_getbf_of_check_some (getbfCheck_of_gt hn h order), hrange]
  · subst ho
    rw [exec_getbf_of_check_some (getbfCheck_of_swapWidth ⟨Nat.pos_of_ne_zero hn, h⟩ h8), hswap]
  · exact ⟨_, exec_getbf_of_validField ⟨Nat.pos_of_ne_zero hn, h⟩ hsw src s, causeOf_acceptedStatus s.status⟩

/-- Settles O19: the bound by the mask, the two parts of a field bit by bit, and the byte swap undone by itself. -/
theorem extractorLaws : Obligations.ExtractorLaws := by
  refine ⟨fun d s n h => ?_, extract_word, fun _ _ h8 _ hn hv => byteswap_byteswap h8 hn hv, fun d k hk => ?_⟩
  · exact ⟨toNat_extract_lt h d, fun _ hm hmn => extract_split h hm hmn d⟩
  · exact (setWidth_byteOf_eq_extract hk d).symm
end

section
/-! The inserter (42_insert.md R130 to R135): no bit lost by its shifts, the laws of the merged word, and `SETBF` on both sides of its range checks. -/

namespace Sys2Proof.Machine

open Sys2Proof

/-! ### The shifts of R130 -/

/-- The masked value is no larger than the mask, so moving it to its field loses no bit either. -/
theorem and_bitmask_shift_lt {s n : Nat} (h : ValidField s n) (v : Word) :
    (v &&& bitmask n).toNat * 2 ^ fieldShift s n < 2 ^ 64 := by
  have hle : (v &&& bitmask n).toNat ≤ (bitmask n).toNat := by
    rw [BitVec.toNat_and]
    exact Nat.and_le_right
  exact (Nat.mul_le_mul_right _ hle).trans_lt (bitmask_shift_lt h)

/-! ### The laws of R133 and R135 -/

/-- A value that fits the field is kept whole by the field's mask. -/
theorem and_bitmask_of_toNat_lt {v : Word} {n : Nat} (hn : n ≤ 64) (hv : v.toNat < 2 ^ n) : v &&& bitmask n = v := by
  apply BitVec.eq_of_toNat_eq
  rw [BitVec.toNat_and, toNat_bitmask hn, Nat.and_two_pow_sub_one_of_lt_two_pow hv]

/-- The merged word reads the low `n` bits of the value alone (R133). -/
theorem insert_congr {s n : Nat} (h : ValidField s n) (d : Word) {v v' : Word}
    (hv : ∀ i < n, v.getLsbD i = v'.getLsbD i) : insert d v s n = insert d v' s n := by
  apply BitVec.eq_of_getLsbD_eq
  intro i hi
  rw [getLsbD_insert h d v hi, getLsbD_insert h d v' hi]
  by_cases hin : fieldShift s n ≤ i ∧ i < fieldShift s n + n
  · rw [if_pos hin, if_pos hin, hv _ (Nat.sub_lt_left_of_lt_add hin.1 hin.2)]
  · rw [if_neg hin, if_neg hin]

/-- Outside the field the merged word is the old one. -/
theorem insert_and_not_fieldMask {s n : Nat} (h : ValidField s n) (d v : Word) :
    insert d v s n &&& ~~~(fieldMask s n) = d &&& ~~~(fieldMask s n) := by
  apply BitVec.eq_of_getLsbD_eq
  intro i hi
  rw [BitVec.getLsbD_and, BitVec.getLsbD_and, BitVec.getLsbD_not, getLsbD_fieldMask h, getLsbD_insert h d v hi]
  by_cases hin : fieldShift s n ≤ i ∧ i < fieldShift s n + n
  · simp [hin]
  · rw [if_neg hin]

/-- Writing back what a field holds changes nothing. -/
theorem insert_extract_same {s n : Nat} (h : ValidField s n) (d : Word) : insert d (extract d s n) s n = d := by
  apply BitVec.eq_of_getLsbD_eq
  intro i hi
  rw [getLsbD_insert h _ _ hi]
  by_cases hin : fieldShift s n ≤ i ∧ i < fieldShift s n + n
  · have hlow : i - fieldShift s n < n := Nat.sub_lt_left_of_lt_add hin.1 hin.2
    have hback : 64 - s - n + (i - fieldShift s n) = i := Nat.add_sub_of_le hin.1
    rw [if_pos hin, getLsbD_extract h, decide_eq_true hlow, hback, Bool.true_and]
  · rw [if_neg hin]

/-- No bit of the word lies in two disjoint fields. -/
theorem not_mem_field_of_disjoint {s n s' n' i : Nat} (h : ValidField s n) (h' : ValidField s' n')
    (hd : s + n ≤ s' ∨ s' + n' ≤ s) (hi : fieldShift s n ≤ i ∧ i < fieldShift s n + n) :
    ¬ (fieldShift s' n' ≤ i ∧ i < fieldShift s' n' + n') := by
  obtain ⟨-, hs⟩ := h
  obtain ⟨-, hs'⟩ := h'
  simp only [fieldShift] at hi ⊢
  omega

/-- Each bit takes the value of the one field it lies in, whichever is written first. -/
theorem insert_insert_of_disjoint {s n s' n' : Nat} (h : ValidField s n) (h' : ValidField s' n')
    (hd : s + n ≤ s' ∨ s' + n' ≤ s) (d v v' : Word) :
    insert (insert d v s n) v' s' n' = insert (insert d v' s' n') v s n := by
  apply BitVec.eq_of_getLsbD_eq
  intro i hi
  rw [getLsbD_insert h' _ _ hi, getLsbD_insert h _ _ hi, getLsbD_insert h _ _ hi, getLsbD_insert h' _ _ hi]
  by_cases hin : fieldShift s n ≤ i ∧ i < fieldShift s n + n
  · simp only [if_pos hin, if_neg (not_mem_field_of_disjoint h h' hd hin)]
  · simp only [if_neg hin]

/-! ### The range checks of `SETBF` (R132) -/

theorem setbfCheck_of_zero (s : Nat) : setbfCheck s 0 = some .zeroWidth := rfl

theorem setbfCheck_of_gt {s n : Nat} (hn : n ≠ 0) (h : 64 < s + n) : setbfCheck s n = some .fieldRange := by
  rw [setbfCheck, if_neg hn, if_pos h]

theorem exec_setbf_of_check_some {pos len : Nat} {e : BfuError} (h : setbfCheck pos len = some e) (s : State) :
    exec (.setbf pos len) s = .next { s with status := rejectedStatus e } :=
  exec_of_check_some (i := .setbf pos len) h s

end Sys2Proof.Machine

open Sys2Proof.Machine

/-- Settles O20: the model's `insert` is the formula, the mask bounds both shifts, and its bits are the value's inside the
field and the old word's outside. -/
theorem insertBitByBit : Obligations.InsertBitByBit := by
  intro d v s n h
  exact ⟨rfl, bitmask_shift_lt h, and_bitmask_shift_lt h v, fun _ hi => getLsbD_insert h d v hi⟩

/-- Settles O21: on a valid field the command writes `insert` of the old `WORD` and bus `b`, and accepts. -/
theorem setbfWritesTheField : Obligations.SetbfWritesTheField := by
  intro pos len s h
  rw [exec_setbf_of_validField h, acceptedStatus_eq_and]
  rfl

/-- Settles O23: the checks in their order, the first that applies deciding. -/
theorem setbfRangeChecksInOrder : Obligations.SetbfRangeChecksInOrder := by
  obtain ⟨hzero, hrange, -⟩ := rejectedStatus_getbf
  intro pos len s
  refine ⟨?_, fun hn h => ?_, fun hn h => ?_⟩
  · rintro rfl
    rw [exec_setbf_of_check_some (setbfCheck_of_zero pos), hzero]
  · rw [exec_setbf_of_check_some (setbfCheck_of_gt hn h), hrange]
  · exact ⟨_, exec_setbf_of_validField ⟨Nat.pos_of_ne_zero hn, h⟩ s, causeOf_acceptedStatus s.status⟩

/-- Settles O24: both values give the same merged word, and the example is that of the state's own `WORD` and bus `b`. -/
theorem setbfDiscardsExcessValueBits : Obligations.SetbfDiscardsExcessValueBits := by
  refine ⟨fun pos len s v v' h hv => ?_, fun s hw hb => ?_⟩
  · refine ⟨_, _, exec_setbf_of_validField h _, exec_setbf_of_validField h _, ?_, causeOf_acceptedStatus s.status⟩
    exact State.registers_eq_iff.mpr ⟨insert_congr h s.word hv, rfl, rfl⟩
  · have hmerged : insert 0x0123456789ABCDEF#64 0xFFFFFFFFFFFFFFF5#64 60 4 = 0x0123456789ABCDE5#64 := by decide
    rw [exec_setbf_of_validField (by decide) s, hw, hb, hmerged, acceptedStatus_eq_and]

/-- Settles O25: each law bit by bit, a bit being the value's inside the field and the old word's outside; idempotence is
last write wins with one value twice. -/
theorem inserterLaws : Obligations.InserterLaws := by
  refine ⟨fun d v s n h => ?_, fun d v v' _ _ _ _ h h' hd => insert_insert_of_disjoint h h' hd d v v'⟩
  obtain ⟨-, hs⟩ := id h
  have hread := extract_insert_same h d v
  exact ⟨fun hv => hread.trans (and_bitmask_of_toNat_lt (by omega) hv), hread, insert_and_not_fieldMask h d v,
    insert_insert_same h d v v, insert_insert_same h d v, insert_extract_same h d⟩
end

section
/-! The byte extractor (43_byte_extract.md R140 to R142): a byte as a slice, by positions and zero-extended, and `NTHBYTE` on both sides of its range check. -/

namespace Sys2Proof.Machine

open Sys2Proof

/-! ### Byte `k` of a word (R140) -/

/-- Byte `k` is the slice of 8 bits from word bit `56 - 8 * k` up. -/
theorem byteOf_eq_extractLsb' (d : Word) (k : Nat) : byteOf d k = d.extractLsb' (56 - 8 * k) 8 := by
  apply BitVec.eq_of_getLsbD_eq
  intro i _
  rw [getLsbD_byteOf, BitVec.getLsbD_extractLsb']

/-- Both numberings meet at word bit `63 - (8 * k + j)`, which stands at bit `7 - j` of the byte. -/
theorem getLsbD_byteOf_eq_posBit {k j : Nat} (hk : k ≤ 7) (hj : j < 8) (d : Word) :
    (byteOf d k).getLsbD (7 - j) = posBit d (8 * k + j) := by
  have hin : 7 - j < 8 := by omega
  have hbit : 56 - 8 * k + (7 - j) = 63 - (8 * k + j) := by omega
  rw [getLsbD_byteOf, hbit, posBit, decide_eq_true hin, Bool.true_and]

/-- The byte zero-extended is the shifted and masked word itself: `R`'s new value by the formula (R140, R141). -/
theorem setWidth_byteOf {k : Nat} (hk : k ≤ 7) (d : Word) :
    (byteOf d k).setWidth 64 = (d >>> (56 - 8 * k)) &&& 0xFF#64 := by
  have hshift : fieldShift (8 * k) 8 = 56 - 8 * k := by simp only [fieldShift]; omega
  have hmask : bitmask 8 = 0xFF#64 := by decide
  rw [setWidth_byteOf_eq_extract hk, extract, hshift, hmask]

/-! ### `NTHBYTE` on both sides of its range check (R141, R142) -/

theorem nthbyteCheck_of_gt {k : Nat} (h : 7 < k) : nthbyteCheck k = some .byteIndex := if_pos h

/-- The `STATUS` of a rejected index: `CAUSE = 6` and `STICKY = 1` (R201, R202). -/
theorem rejectedStatus_byteIndex : rejectedStatus .byteIndex = 0x0106#16 := by decide

/-- `NTHBYTE` on an index that passes its check: it writes `R` and accepts. -/
theorem exec_nthbyte_of_le {k : Nat} (hk : k ≤ 7) (src : Source) (s : State) :
    exec (.nthbyte src k) s =
      .next { s with r := (byteOf (s.source src) k).setWidth 64, status := acceptedStatus s.status } :=
  exec_of_check_none (i := .nthbyte src k) (nthbyteCheck_none.mpr hk) s

end Sys2Proof.Machine

open Sys2Proof.Machine

/-- Settles O26: bit `i` of the byte is word bit `56 - 8 * k + i`, from which the slice, the positions and the general path
follow. -/
theorem byteOfBitByBit : Obligations.ByteOfBitByBit := by
  intro d k hk
  exact ⟨rfl, byteOf_eq_extractLsb' d k, fun _ hj => getLsbD_byteOf_eq_posBit hk hj d, setWidth_byteOf_eq_extract hk d⟩

/-- Settles O27: on an index up to 7 the command writes the zero-extended byte of its source to `R` and accepts. -/
theorem nthbyteReturnsTheByte : Obligations.NthbyteReturnsTheByte := by
  intro src n s hn
  rw [exec_nthbyte_of_le hn, setWidth_byteOf hn, acceptedStatus_eq_and]
  cases src <;> rfl

/-- Settles O28: the one check is `k ≤ 7`; above it only `STATUS` changes. -/
theorem nthbyteIndexRange : Obligations.NthbyteIndexRange := by
  refine fun src k s => ⟨fun hk => ?_, fun hk => ?_⟩
  · rw [exec_of_check_some (i := .nthbyte src k) (nthbyteCheck_of_gt hk), State.reject, rejectedStatus_byteIndex]
  · exact ⟨_, exec_nthbyte_of_le hk src s, causeOf_acceptedStatus s.status⟩
end

section
/-! A step against its decoded command and the table of its outcomes (50_step.md R150, R151; 20_memory.md R46). -/

namespace Sys2Proof.Machine

open Sys2Proof

/-! ### `SETBF` by the `OP` of its word (R63) -/

/-- A well-formed word has the `OP` of its instruction's row. -/
theorem op_of_decode {w : Cmd} {i : Instr} (hd : decode w = .wellFormed i) : slice w 3 0 = opNumber (opcodeOf i) := by
  obtain ⟨hrow, -⟩ := holdsFields_iff.mp (decode_eq_wellFormed_iff.mp hd)
  exact hrow

/-- A well-formed word with `OP = 3` is the `SETBF` of its fields: every row of R63 has an `OP` of its own. -/
theorem eq_setbf_of_decode {w : Cmd} {i : Instr} (hd : decode w = .wellFormed i) (hop : slice w 3 0 = 3) :
    i = .setbf (slice w 14 8) (slice w 22 16) := by
  obtain ⟨-, -, hi⟩ := holdsFields_iff.mp (decode_eq_wellFormed_iff.mp hd)
  have hopcode : opcodeOf i = .setbf := opNumber_injective ((op_of_decode hd).symm.trans hop)
  rw [← hi, hopcode, Opcode.operands, posField_eq_slice, lenField_eq_slice]

/-! ### The operands and the cause a command at the port leaves -/

/-- The source word of a command at the port: the bus its move drives, or `WORD` as it stood (R62). -/
theorem source_drive_advance (s : State) (t : Transaction) (rest : List HostMove) (src : Source) :
    ((s.advance rest).drive t).source src = if src = .busA then t.a else s.word := by
  cases src <;> rfl

theorem BfuError.one_le_code (e : BfuError) : 1#4 ≤ e.code := by cases e <;> decide

end Sys2Proof.Machine

open Sys2Proof.Machine

/-- Settles O31: each class of words meets the stage of R150 that decides it, and each operation its case of the
pseudocode. -/
theorem stepPerformsThePseudocode : Obligations.StepPerformsThePseudocode :=
  fun _ _ _ hr hh => step_performs_pseudocode hr hh

/-- Settles O34: a rejection writes `STATUS` alone; an accepted command writes `WORD` when its `OP` is that of `SETBF`, and
otherwise `R`. -/
theorem outcomeTableOfEveryCommand : Obligations.OutcomeTableOfEveryCommand := by
  intro s t rest hr hh
  obtain ⟨ha, e, he⟩ | ⟨ha, i, hd, -, hi⟩ := step_command_cases hh hr
  · refine ⟨_, he, fun ha' => absurd ha' ha, fun _ => ⟨rfl, rfl, ?_⟩⟩
    simpa using And.intro e.one_le_code e.code_le
  · refine ⟨_, hi, fun _ => ⟨causeOf_acceptedStatus _, stickyOf_acceptedStatus _, fun hop => ?_, fun hop => ?_⟩,
      fun hna => absurd ha hna⟩
    · obtain rfl := eq_setbf_of_decode hd hop
      exact ⟨rfl, rfl⟩
    · have hne : ∀ pos len, i ≠ .setbf pos len := by
        rintro pos len rfl
        exact hop (op_of_decode hd)
      refine ⟨wordOf_of_ne_setbf hne _, i, hd, ?_⟩
      cases i with
      | bitmask len => rfl
      | getbf order src pos len => simp only [resultOf, source_drive_advance]
      | setbf pos len => exact absurd rfl (hne pos len)
      | nthbyte src n => simp only [resultOf, source_drive_advance]

/-- Settles O30: the step decodes the word on the buses its move drives, and a well-formed word runs its instruction. -/
theorem stepRunsTheDecodedCommand : Obligations.StepRunsTheDecodedCommand :=
  fun _ _ _ _ hr hh hd => step_wellFormed hh hr hd
end

section
/-! The cause a command word reports (60_exceptions.md R201, R204), what a rejected and an accepted command leave (R202, R203,
R207), and the idle unit (R215). -/

namespace Sys2Proof.Machine

open Sys2Proof

/-! ### The check of a word finds the first cause that applies (R204) -/

theorem not_illegalOp_of_op {w : Cmd} {op : Opcode} (h : slice w 3 0 = opNumber op) : ¬ hasCause w .illegalOp := by
  intro hill
  rw [← ofField_opField_eq_none, ofField_opField_eq_some.mpr h] at hill
  cases hill

/-- The range checks of a well-formed word that has a cause find that cause or one before it: each check is made only where
those before it passed. -/
theorem rangeCheck_code_le_of_hasCause {w : Cmd} {op : Opcode} {e : BfuError} (hop : slice w 3 0 = opNumber op)
    (hb : ¬ breaksReserved w) (h : hasCause w e) :
    ∃ e', rangeCheck (op.operands w) = some e' ∧ e'.code ≤ e.code := by
  have opcode_eq {op' : Opcode} (h' : slice w 3 0 = opNumber op') : op = op' := opNumber_injective (hop.symm.trans h')
  cases e with
  | illegalOp => exact absurd h (not_illegalOp_of_op hop)
  | reservedField => exact absurd h hb
  | widthRange =>
    obtain ⟨h1, hlen⟩ := h
    obtain rfl := opcode_eq (op' := .bitmask) h1
    rw [← lenField_eq_slice] at hlen
    exact ⟨.widthRange, bitmaskCheck_of_gt hlen, BitVec.le_refl _⟩
  | zeroWidth =>
    obtain ⟨hrow, hlen⟩ := h
    rw [← lenField_eq_slice] at hlen
    refine ⟨.zeroWidth, ?_, BitVec.le_refl _⟩
    obtain h2 | h3 := hrow
    · obtain rfl := opcode_eq (op' := .getbf) h2
      rw [Opcode.operands, hlen]; exact getbfCheck_of_zero _ _
    · obtain rfl := opcode_eq (op' := .setbf) h3
      rw [Opcode.operands, hlen]; exact setbfCheck_of_zero _
  | fieldRange =>
    obtain ⟨hrow, hlen, hsum⟩ := h
    rw [← lenField_eq_slice] at hlen hsum
    rw [← posField_eq_slice] at hsum
    refine ⟨.fieldRange, ?_, BitVec.le_refl _⟩
    obtain h2 | h3 := hrow
    · obtain rfl := opcode_eq (op' := .getbf) h2
      exact getbfCheck_of_gt (Nat.one_le_iff_ne_zero.mp hlen) hsum _
    · obtain rfl := opcode_eq (op' := .setbf) h3
      exact setbfCheck_of_gt (Nat.one_le_iff_ne_zero.mp hlen) hsum
  | byteIndex =>
    obtain ⟨h4, hpos⟩ := h
    obtain rfl := opcode_eq (op' := .nthbyte) h4
    rw [← posField_eq_slice] at hpos
    exact ⟨.byteIndex, nthbyteCheck_of_gt hpos, BitVec.le_refl _⟩
  | swapWidth =>
    rcases hc : rangeCheck (op.operands w) with _ | e'
    · exact absurd h (accepted_of_rangeCheck_none hop hb hc _)
    · exact ⟨e', rfl, e'.code_le⟩

/-- The check of a word that has a cause finds that cause or one before it. -/
theorem wordCheck_code_le_of_hasCause {w : Cmd} {e : BfuError} (h : hasCause w e) :
    ∃ e', wordCheck w = some e' ∧ e'.code ≤ e.code := by
  obtain ⟨-, hd⟩ | ⟨op, hop, -, hd⟩ | ⟨op, hop, hb, hd⟩ := decode_cases w <;> rw [wordCheck, hd]
  · exact ⟨_, rfl, e.one_le_code⟩
  · refine ⟨_, rfl, ?_⟩
    cases e with
    | illegalOp => exact absurd h (not_illegalOp_of_op hop)
    | reservedField | widthRange | zeroWidth | fieldRange | byteIndex | swapWidth => decide
  · exact rangeCheck_code_le_of_hasCause hop hb h

/-- A word reports the error its check finds (R201, R204). -/
theorem reports_iff_wordCheck {w : Cmd} {e : BfuError} : Reports w e ↔ wordCheck w = some e := by
  constructor
  · rintro ⟨hcause, hfirst⟩
    obtain ⟨e', hc, hle⟩ := wordCheck_code_le_of_hasCause hcause
    have hnlt : ¬ e'.code < e.code := fun hlt => hfirst e' hlt (hasCause_of_wordCheck hc)
    rw [hc, BfuError.code_inj (BitVec.le_antisymm hle (BitVec.not_lt.mp hnlt))]
  · intro hc
    refine ⟨hasCause_of_wordCheck hc, fun e' hlt hcause => ?_⟩
    obtain ⟨e'', hc', hle⟩ := wordCheck_code_le_of_hasCause hcause
    rw [hc] at hc'; cases hc'
    exact BitVec.not_lt.mpr hle hlt

theorem Reports.unique {w : Cmd} {e e' : BfuError} (h : Reports w e) (h' : Reports w e') : e' = e :=
  Option.some.inj ((reports_iff_wordCheck.mp h').symm.trans (reports_iff_wordCheck.mp h))

theorem Accepted.not_reports {w : Cmd} (h : Accepted w) (e : BfuError) : ¬ Reports w e := fun hrep => h e hrep.1

theorem exists_reports_of_not_accepted {w : Cmd} (h : ¬ Accepted w) : ∃ e, Reports w e := by
  rw [accepted_iff_wordCheck_none] at h
  obtain ⟨e, he⟩ := Option.ne_none_iff_exists'.mp h
  exact ⟨e, reports_iff_wordCheck.mpr he⟩

/-! ### What a rejected and an accepted command leave (R202, R203) -/

section
variable {s : State} {t : Transaction} {rest : List HostMove} (hh : s.host = .command t :: rest) (hr : s.rst = false)
include hh hr

/-- A command that reports a cause is rejected with it. -/
theorem step_of_reports {e : BfuError} (he : Reports t.cmd e) :
    step s = .next (((s.advance rest).drive t).reject e) :=
  (step_command hh hr).trans (runWord_of_wordCheck_some (reports_iff_wordCheck.mp he) _)

/-- An accepted command clears `CAUSE` and keeps `STICKY`. -/
theorem status_of_accepted {u : State} (ha : Accepted t.cmd) (hu : step s = .next u) :
    u.status = acceptedStatus s.status := by
  obtain ⟨hna, -⟩ | ⟨-, i, -, -, hi⟩ := step_command_cases hh hr
  · exact absurd ha hna
  · rw [hi] at hu; cases hu; rfl

/-- `CAUSE` after a command is 0 or the code of the cause it reports. -/
theorem causeOf_status_of_step {u : State} (hu : step s = .next u) :
    (Accepted t.cmd → causeOf u.status = 0#4) ∧ ∀ e, Reports t.cmd e → causeOf u.status = e.code := by
  refine ⟨fun ha => ?_, fun e he => ?_⟩
  · rw [status_of_accepted hh hr ha hu, causeOf_acceptedStatus]
  · rw [step_of_reports hh hr he] at hu; cases hu
    exact causeOf_rejectedStatus e

/-- `STICKY` stays 1 over a command, accepted or rejected (R207). -/
theorem stickyOf_status_of_step {u : State} (hu : step s = .next u) (hs : stickyOf s.status = true) :
    stickyOf u.status = true := by
  obtain ⟨v, hv, -, -, hsticky, -⟩ := step_command_status hh hr
  rw [hu] at hv; cases hv
  exact hsticky.mpr (.inl hs)

/-- `WORD` and `R` after a command are the pseudocode's from any `STATUS` (R30, R150). -/
theorem step_results_from_any_status (st : StatusWord) :
    ∃ u, step s = .next u ∧ u.word = (pseudocodeStep { s.registers with status := st } t.cmd t.a t.b).word ∧
      u.r = (pseudocodeStep { s.registers with status := st } t.cmd t.a t.b).r := by
  obtain ⟨u, u', hu, hu', hword, hres, -⟩ := statusNeverAffectsAResult s st t rest hr hh
  obtain ⟨v, hv, hreg, -⟩ := step_performs_pseudocode (s := { s with status := st }) hr hh
  rw [hu'] at hv; cases hv
  exact ⟨u, hu, hword.trans (congrArg Registers.word hreg), hres.trans (congrArg Registers.r hreg)⟩

end

/-! ### The idle unit (R215) -/

theorem step_released_idle {s : State} (hr : s.rst = false) (hh : s.host = []) : step s = .next s := by
  rw [step_idle hh, underRst_released hr]

end Sys2Proof.Machine

open Sys2Proof.Machine

/-- Settles O39: the check of a word finds the first cause that applies, and the step leaves its code; the examples are
checked by evaluation. -/
theorem causeReportedIsTheFirstThatApplies : Obligations.CauseReportedIsTheFirstThatApplies := by
  refine ⟨fun w => ?_, fun s t rest hr hh => ?_, reports_iff_wordCheck.mpr (by decide),
    reports_iff_wordCheck.mpr (by decide), reports_iff_wordCheck.mpr (by decide), reports_iff_wordCheck.mpr (by decide)⟩
  · by_cases ha : Accepted w
    · exact .inl ⟨ha, fun ⟨e, he⟩ => ha.not_reports e he⟩
    · obtain ⟨e, he⟩ := exists_reports_of_not_accepted ha
      exact .inr ⟨ha, e, he, fun e' he' => he.unique he'⟩
  · obtain ⟨u, hu⟩ := everyStepAnswersANextState s
    obtain ⟨haccepted, hreported⟩ := causeOf_status_of_step hh hr hu
    refine ⟨u, hu, ?_, haccepted, hreported _, hreported _, hreported _, hreported _, hreported _, hreported _,
      hreported _, fun e he => ?_⟩
    · by_cases ha : Accepted t.cmd
      · rw [haccepted ha]; decide
      · obtain ⟨e, he⟩ := exists_reports_of_not_accepted ha
        rw [hreported e he]; exact e.code_le
    · rw [step_of_reports hh hr he] at hu; cases hu
      exact ⟨rfl, rfl⟩

/-- Settles O40: the step is the shared rejection, on the buses its move drives. -/
theorem rejectionChangesOnlyStatus : Obligations.RejectionChangesOnlyStatus := by
  intro s t rest e hr hh he
  refine ⟨rejectedStatus e, step_of_reports hh hr he, causeOf_rejectedStatus e, stickyOf_rejectedStatus e, ?_⟩
  simp [errOf, e.code_ne_zero]

/-- Settles O41: the step performs the pseudocode and leaves the accepted `STATUS`. -/
theorem acceptanceClearsCauseAndKeepsSticky : Obligations.AcceptanceClearsCauseAndKeepsSticky := by
  intro s t rest hr hh ha
  obtain ⟨u, hu, hreg, -⟩ := step_performs_pseudocode hr hh
  have hst := status_of_accepted hh hr ha hu
  refine ⟨u, hu, ?_, ?_, ?_, congrArg Registers.word hreg, congrArg Registers.r hreg⟩
  · rw [hst, causeOf_acceptedStatus]
  · rw [hst, stickyOf_acceptedStatus]
  · rw [hst, errOf, causeOf_acceptedStatus]; rfl

/-- Settles O45: the rejected command leaves every register but `STATUS`, on which the second command's `WORD`, `R` and
`CAUSE` do not depend. -/
theorem commandAfterARejectionIsPerformed : Obligations.CommandAfterARejectionIsPerformed := by
  intro s t t' rest hr hh hna
  obtain ⟨e, he⟩ := exists_reports_of_not_accepted hna
  obtain ⟨v, hv, hvh, hvr, hvs, hvreg⟩ : ∃ v, step s = .next v ∧ v.host = .command t' :: rest ∧ v.rst = false ∧
      stickyOf v.status = true ∧ { v.registers with status := s.status } = s.registers :=
    ⟨_, step_of_reports hh hr he, rfl, hr, stickyOf_rejectedStatus e, rfl⟩
  obtain ⟨u, hu, hword, hres⟩ := step_results_from_any_status hvh hvr s.status
  rw [hvreg] at hword hres
  exact ⟨u, (run_succ 1 hv).trans (run_succ 0 hu), stickyOf_status_of_step hvh hvr hu hvs, hword, hres,
    causeOf_status_of_step hvh hvr hu⟩

/-- Settles O50: an idle step of a released unit is the identity, and the run follows by induction on its length. -/
theorem idleUnitHoldsItsState : Obligations.IdleUnitHoldsItsState := by
  intro k s hr hh
  induction k with
  | zero => rfl
  | succ k ih => exact (run_succ k (step_released_idle hr hh)).trans ih
end

section
/-! The line `rst` over a step: asserted, held and released; and what can clear `STICKY` (70_reset_and_hazards.md R240). -/

namespace Sys2Proof.Machine

open Sys2Proof

@[simp] theorem rst_assertReset (inFlight : Option Transaction) (s : State) : (assertReset inFlight s).rst = true := by
  cases inFlight <;> rfl

/-- `err` is 0 on the reset registers. -/
theorem err_of_registers_zero {s : State} (h : s.registers = ⟨0#64, 0#64, 0#16⟩) : s.ports.err = false := by
  obtain ⟨-, -, hst⟩ := State.registers_eq_iff.mp h
  simp only [State.ports, hst]; decide

/-- An asserted `rst` stays asserted over every step but its release. -/
theorem step_keeps_rst_asserted {s u : State} (hr : s.rst = true) (hrel : ∀ rest, s.host ≠ .releaseRst :: rest)
    (hu : step s = .next u) : u.rst = true := by
  rcases hh : s.host with _ | ⟨m, rest⟩
  · rw [step_idle hh, underRst_asserted hr] at hu; cases hu
    exact hr
  · have hr' : (s.advance rest).rst = true := hr
    cases m with
    | command t => rw [step_command_underRst hh hr] at hu; cases hu; exact hr
    | assertRst inFlight => rw [step_move hh] at hu; cases hu; exact rst_assertReset inFlight _
    | releaseRst => exact absurd hh (hrel rest)
    | powerOn => rw [step_move hh] at hu; cases hu; exact hr
    | readPorts => rw [step_move hh, hostMove, underRst_asserted hr'] at hu; cases hu; exact hr

/-- While `rst` is asserted, a legal state has the reset registers. -/
theorem registers_of_legal_asserted {s : State} (h : Legal s) (hr : s.rst = true) :
    s.registers = ⟨0#64, 0#64, 0#16⟩ :=
  State.registers_eq_iff.mpr (h.2 hr)

/-- Only a reset clears `STICKY`: a command of a released unit keeps it at 1, and any other step keeps the registers. -/
theorem reset_of_step_clears_sticky {s u : State} (hu : step s = .next u) (hs : stickyOf s.status = true)
    (hcleared : stickyOf u.status = false) : s.rst = true ∨ ∃ m rest, s.host = m :: rest ∧ m.resets = true := by
  have hnot : stickyOf u.status ≠ true := by simp [hcleared]
  obtain ⟨t, rest, hh, hr⟩ | ⟨-, hreset⟩ | ⟨-, hreg⟩ := step_cases hu
  · exact absurd (stickyOf_status_of_step hh hr hu hs) hnot
  · exact hreset
  · have hst : u.status = s.status := congrArg Registers.status hreg
    exact absurd (hst ▸ hs) hnot

end Sys2Proof.Machine

open Sys2Proof.Machine

/-- Settles O47: a reset move and every step under an asserted `rst` leave the reset registers; the line follows the host's
moves; and a command of a released unit never clears `STICKY`. -/
theorem resetLineHoldsTheResetState : Obligations.ResetLineHoldsTheResetState := by
  refine ⟨fun s inFlight rest hh => ?asserted, fun s hr hrel => ?held, fun s t rest hlegal hr hh => ?command,
    fun s rest hr hh => ?released, fun s rest hh => step_resets hh rfl,
    fun s u => reset_of_step_clears_sticky⟩
  case asserted =>
    have hreg := registers_assertReset inFlight (s.advance rest)
    exact ⟨_, step_move hh, hreg, rst_assertReset inFlight _, err_of_registers_zero hreg⟩
  case held =>
    obtain ⟨u, hu, hreg⟩ := step_asserted hr
    exact ⟨u, hu, hreg, step_keeps_rst_asserted hr hrel hu⟩
  case command =>
    obtain ⟨u, hu, hreg⟩ := step_asserted hr
    exact ⟨u, hu, hreg.trans (registers_of_legal_asserted hlegal hr).symm⟩
  case released =>
    obtain ⟨u, hu, hreg⟩ := step_asserted hr
    refine ⟨u, hu, hreg, ?_⟩
    rw [step_move hh] at hu; cases hu
    rfl
end
